-- ==== Sys2Proof/Word.lean ====
section
/-! DEFINITION. The two word types of the block: bytes and 16-bit values, both unsigned (R8). -/

namespace Sys2Proof

/-- An unsigned 8-bit value 0..255 (R8). -/
abbrev Byte := BitVec 8

/-- An unsigned 16-bit value: the sample (R71). -/
abbrev Word16 := BitVec 16

end Sys2Proof
end

