-- ==== Sys2Proof/Config.lean ====
section
/-! DEFINITION. What a realisation fixes and no rule reads: the number of instances (R7, D22) and the numeric code of
each state of the reassembler (D9). The other constants of R7 stand in Sys2Proof/Machine/Params.lean. -/

namespace Sys2Proof

/-- `N_INST`: how many independent instances there are when nobody says (R7: OPEN, default 1; D22). -/
def Config.nInst : Nat := 1

/-- The 2-bit codes of the four states, in the order of D9; nothing outside the block can read them (R21). -/
def Config.codeSeekingStart : BitVec 2 := 0
/-- D9. -/
def Config.codeHaveStart : BitVec 2 := 1
/-- D9. -/
def Config.codeBufferingPayload : BitVec 2 := 2
/-- D9: never stored (R21). -/
def Config.codeFrameReady : BitVec 2 := 3

end Sys2Proof
end

