-- ==== Sys2Proof/Syntax.lean ====
section
/-! DEFINITION. What the block decodes: the reassembler states that select a decoding (R21, R68), the frame types
with a name (R69), the two host operations (R73), and Instr, one constructor for each of the 30 rows of
spec/opcode_table.json (R75), in the table's order. -/

namespace Sys2Proof

/-- The resting values of the reassembler state register `st` (R21). FRAME_READY is never stored; the view
`Machine.State.phase` shows it. -/
inductive RxState where
  /-- No frame in progress, looking for 0x7E. -/
  | seekingStart
  /-- Delimiter seen, length not yet known. -/
  | haveStart
  /-- Length known, waiting for the rest of the frame. -/
  | bufferingPayload
  deriving DecidableEq, Repr

/-- The seventeen frame types the source names (R69). Only `zbIoSampleRx` has a decode routine (R125). -/
inductive FrameType where
  | atCommand
  | atCommandQueue
  | zbTxRequest
  | explicitAddrCmd
  | remoteCmdRequest
  | createSourceRoute
  | atCommandResponse
  | modemStatus
  | zbTxStatus
  | zbRxPacket
  | zbExplicitRx
  | zbIoSampleRx
  | sensorRead
  | nodeId
  | remoteCmdResponse
  | otaFwUpdateStatus
  | routeRecord
  deriving DecidableEq, Repr

/-- A host operation (format OP, R73). -/
inductive Op where
  | feed (chunk : List Byte)
  | reset
  deriving DecidableEq, Repr

/-- One constructor per row of the opcode table. A RAW or UNESC row whose byte is not fixed carries that byte, a
FRAME row carries the CompleteFrame it reacts to, FEED carries its chunk. -/
inductive Instr where
  -- RAW: the Escape Filter's reaction to one raw byte (R61)
  | escd (b : Byte)
  | escTrunc
  | esc
  | lit (b : Byte)
  -- UNESC: the Frame Reassembler's reaction to one unescaped byte (R68)
  | seekStart
  | seekSkip (b : Byte)
  | lenByte (b : Byte)
  | payLast (b : Byte)
  | payByte (b : Byte)
  -- FRAME: the Validator's and Dispatcher's reaction to one CompleteFrame (R66, R69)
  | csumBad (f : List Byte)
  | ftAtCommand (f : List Byte)
  | ftAtCommandQueue (f : List Byte)
  | ftZbTxRequest (f : List Byte)
  | ftExplicitAddrCmd (f : List Byte)
  | ftRemoteCmdRequest (f : List Byte)
  | ftCreateSourceRoute (f : List Byte)
  | ftAtCommandResponse (f : List Byte)
  | ftModemStatus (f : List Byte)
  | ftZbTxStatus (f : List Byte)
  | ftZbRxPacket (f : List Byte)
  | ftZbExplicitRx (f : List Byte)
  | ftZbIoSampleRx (f : List Byte)
  | ftSensorRead (f : List Byte)
  | ftNodeId (f : List Byte)
  | ftRemoteCmdResponse (f : List Byte)
  | ftOtaFwUpdateStatus (f : List Byte)
  | ftRouteRecord (f : List Byte)
  | ftUnknown (f : List Byte)
  -- OP: the host operations (R73)
  | feed (chunk : List Byte)
  | reset
  deriving DecidableEq, Repr

end Sys2Proof
end

