-- ==== Sys2Proof/Machine/Params.lean ====
section
/-! DEFINITION. The constants of R7, but for the number of instances, which stands in Sys2Proof/Config.lean, and the
codes of the named frame types (R69). Each is a definition of its own, so that an audit can change one without touching
the rules (U15). -/

namespace Sys2Proof

/-- `START`: the start delimiter (R7). -/
def Config.start : Byte := 0x7E

/-- `ESC`: the escape byte (R7). -/
def Config.esc : Byte := 0x7D

/-- `ESC_XOR`: XORed onto the byte that follows `ESC` (R7). -/
def Config.escXor : Byte := 0x20

/-- `STUFFED`: the byte values a transmitter escapes (R7, R63). The receive side reads this nowhere. -/
def Config.stuffed : List Byte := [0x7E, 0x7D, 0x11, 0x13]

/-- `LEN_BITS`: the width of the payload-length field (R7). -/
abbrev Config.lenBits : Nat := 16

/-- A payload length: the unsigned value of the length field (R7, R65). -/
abbrev PayloadLen := BitVec Config.lenBits

/-- `HDR_BYTES`: delimiter and two length bytes (R7). -/
def Config.hdrBytes : Nat := 3

/-- `OVERHEAD`: what a frame has beside its payload (R7). -/
def Config.overhead : Nat := 4

/-- `MAX_PAYLOAD`: the largest value of the length field (R7). -/
def Config.maxPayload : Nat := 2 ^ Config.lenBits - 1

/-- `BUF_CAP`: how many bytes the FrameBuffer holds (R7, R47, D8). -/
def Config.bufCap : Nat := Config.maxPayload + Config.overhead

/-- `CSUM_FIRST`: offset of the first byte under the checksum (R7). -/
def Config.csumFirst : Nat := 3

/-- `CSUM_OK`: the low byte of a valid frame's sum (R7). -/
def Config.csumOk : Nat := 0xFF

/-- `TYPE_OFF`: offset of the frame-type identifier (R7). -/
def Config.typeOff : Nat := 3

/-- `FT_IO_SAMPLE`: the one decoded frame type (R7). -/
def Config.ftIoSample : Byte := 0x92

/-- `SAMPLE_HI_OFF`: offset of the sample's high byte (R7, R70). -/
def Config.sampleHiOff : Nat := 20

/-- `SAMPLE_LO_OFF`: offset of the sample's low byte (R7, R70). -/
def Config.sampleLoOff : Nat := 21

/-- `MIN_IO_SAMPLE_LEN`: the least length of a 0x92 frame that decodes (R7, D7). -/
def Config.minIoSampleLen : Nat := 22

/-- The frame-type identifier of each named type (R69). -/
def FrameType.code : FrameType → Byte
  | .atCommand => 0x08
  | .atCommandQueue => 0x09
  | .zbTxRequest => 0x10
  | .explicitAddrCmd => 0x11
  | .remoteCmdRequest => 0x17
  | .createSourceRoute => 0x21
  | .atCommandResponse => 0x88
  | .modemStatus => 0x8A
  | .zbTxStatus => 0x8B
  | .zbRxPacket => 0x90
  | .zbExplicitRx => 0x91
  | .zbIoSampleRx => Config.ftIoSample
  | .sensorRead => 0x94
  | .nodeId => 0x95
  | .remoteCmdResponse => 0x97
  | .otaFwUpdateStatus => 0xA0
  | .routeRecord => 0xA1

/-- The named types in the order of R69. -/
def FrameType.all : List FrameType :=
  [.atCommand, .atCommandQueue, .zbTxRequest, .explicitAddrCmd, .remoteCmdRequest, .createSourceRoute,
   .atCommandResponse, .modemStatus, .zbTxStatus, .zbRxPacket, .zbExplicitRx, .zbIoSampleRx, .sensorRead,
   .nodeId, .remoteCmdResponse, .otaFwUpdateStatus, .routeRecord]

/-- The type a type byte names, if it names one (R69). -/
def FrameType.ofByte (t : Byte) : Option FrameType :=
  FrameType.all.find? fun k => k.code == t

end Sys2Proof
end

