-- ==== Sys2Proof/Machine/Operands.lean ====
section
/-! DEFINITION. The operand forms: a byte and a big-endian pair read at a frame offset (R44), the payload length and
the target length they give (R23, R65), the transmitter's checksum (R66). A frame is the list of its bytes, offset 0
first; a read past its end has no value (R46). -/

namespace Sys2Proof.Machine

/-- Two bytes as one big-endian value of `w` bits: `(zext_w(hi) << 8) | zext_w(lo)` (R42, R44). -/
def bePair (w : Nat) (hi lo : Byte) : BitVec w :=
  (hi.zeroExtend w <<< 8) ||| lo.zeroExtend w

/-- `MemRead(addr, 1)` on a frame (R44). -/
def memRead8 (f : List Byte) (addr : Nat) : Option Byte :=
  f[addr]?

/-- The big-endian value of the frame's bytes at two offsets, defined only where both are in the frame. At `addr` and
`addr + 1` it is `MemRead(addr, 2)` (R44). -/
def memReadPair (w : Nat) (f : List Byte) (hiOff loOff : Nat) : Option (BitVec w) :=
  (memRead8 f hiOff).bind fun hi => (memRead8 f loOff).map fun lo => bePair w hi lo

/-- `plen` of a frame: its bytes 1 and 2, a value of `LEN_BITS` bits (R65). -/
def framePlen (f : List Byte) : Option PayloadLen :=
  memReadPair Config.lenBits f 1 2

/-- The target total length of a frame of payload length `plen`: exact, never wrapped (R23, R114). -/
def targetLen (plen : PayloadLen) : Nat :=
  plen.toNat + Config.overhead

/-- The sum of a sequence of bytes as an unbounded unsigned integer (R110). -/
def byteSum (bs : List Byte) : Nat :=
  (bs.map BitVec.toNat).sum

/-- The checksum a transmitter puts after the payload `p` (R66). The receive path computes it nowhere. -/
def txChecksum (p : List Byte) : Byte :=
  0xFF - BitVec.ofNat 8 (byteSum p)

end Sys2Proof.Machine
end

