-- ==== Sys2Proof/Machine/Flags.lean ====
section
/-! DEFINITION. The predicates the rules compute (R27). None is stored: each is used at once. -/

namespace Sys2Proof.Machine

/-- `csum_ok(f)`: the low byte of the sum of the bytes from offset 3 to the last is 0xFF (R110, R111). -/
def csumOk (f : List Byte) : Bool :=
  byteSum (f.drop Config.csumFirst) % 256 == Config.csumOk

/-- `f` is a CompleteFrame: it starts with the delimiter and has exactly `plen + 4` bytes (R64). -/
def isCompleteFrame (f : List Byte) : Bool :=
  memRead8 f 0 == some Config.start && (framePlen f).any fun p => f.length == targetLen p

/-- The type byte of `f` is `t` (R120). -/
def typeIs (f : List Byte) (t : Byte) : Bool :=
  memRead8 f Config.typeOff == some t

/-- `b` is among the values a transmitter escapes (R63). -/
def isStuffed (b : Byte) : Bool :=
  Config.stuffed.contains b

end Sys2Proof.Machine
end

