-- ==== Sys2Proof/WellFormed.lean ====
section
/-! DEFINITION. The well-formed instructions: those whose operand is one the row's encoding admits (R61, R68, R69). -/

namespace Sys2Proof

open Machine

/-- `f` is a checksum-valid CompleteFrame whose type byte is that of `k` (R69, R120). -/
def namedFrame (k : FrameType) (f : List Byte) : Bool :=
  isCompleteFrame f && csumOk f && typeIs f k.code

/-- `f` is a checksum-valid CompleteFrame whose type byte none of the seventeen names has (R124). -/
def unnamedFrame (f : List Byte) : Bool :=
  isCompleteFrame f && csumOk f && ((memRead8 f Config.typeOff).bind FrameType.ofByte).isNone

/-- The operand is one the row's encoding admits. ESCD, LEN_BYTE, PAY_BYTE and PAY_LAST take any byte, FEED any
chunk, the empty one included (R155). -/
def Instr.wellFormed : Instr → Bool
  | .escd _ => true
  | .escTrunc => true
  | .esc => true
  | .lit b => b != Config.esc
  | .seekStart => true
  | .seekSkip b => b != Config.start
  | .lenByte _ => true
  | .payLast _ => true
  | .payByte _ => true
  | .csumBad f => isCompleteFrame f && !csumOk f
  | .ftAtCommand f => namedFrame .atCommand f
  | .ftAtCommandQueue f => namedFrame .atCommandQueue f
  | .ftZbTxRequest f => namedFrame .zbTxRequest f
  | .ftExplicitAddrCmd f => namedFrame .explicitAddrCmd f
  | .ftRemoteCmdRequest f => namedFrame .remoteCmdRequest f
  | .ftCreateSourceRoute f => namedFrame .createSourceRoute f
  | .ftAtCommandResponse f => namedFrame .atCommandResponse f
  | .ftModemStatus f => namedFrame .modemStatus f
  | .ftZbTxStatus f => namedFrame .zbTxStatus f
  | .ftZbRxPacket f => namedFrame .zbRxPacket f
  | .ftZbExplicitRx f => namedFrame .zbExplicitRx f
  | .ftZbIoSampleRx f => namedFrame .zbIoSampleRx f
  | .ftSensorRead f => namedFrame .sensorRead f
  | .ftNodeId f => namedFrame .nodeId f
  | .ftRemoteCmdResponse f => namedFrame .remoteCmdResponse f
  | .ftOtaFwUpdateStatus f => namedFrame .otaFwUpdateStatus f
  | .ftRouteRecord f => namedFrame .routeRecord f
  | .ftUnknown f => unnamedFrame f
  | .feed _ => true
  | .reset => true

end Sys2Proof
end

