-- ==== Sys2Proof/Decode.lean ====
section
/-! DEFINITION. Decoding: what the block looks at (a symbol: the byte, frame or operation together with the context
that selects its row, R60) to the row of the opcode table (R61, R68, R69, R75). It is total: no symbol is refused
(R72). After it the encoder, the table's bit patterns, and the reading of a bare table word. -/

namespace Sys2Proof

open Machine

/-- What the next instruction is decoded from, with its context (R60). -/
inductive Symbol where
  /-- A raw byte, the pending-escape flag, and whether the byte is the last of its chunk (R61). -/
  | raw (esc last : Bool) (b : Byte)
  /-- An unescaped byte, the state register, `len(buf)`, and `plen` where it is defined (R68). -/
  | unesc (st : RxState) (len : Nat) (plen : Option PayloadLen) (b : Byte)
  /-- A CompleteFrame (R69). -/
  | frame (f : List Byte)
  /-- A host operation, selected by its name (R73, R75). -/
  | op (o : Op)
  deriving DecidableEq, Repr

/-- The four formats (R60). -/
inductive Format where
  | raw
  | unesc
  | frame
  | op
  deriving DecidableEq, Repr

/-- The format of a symbol. -/
def Symbol.format : Symbol → Format
  | .raw _ _ _ => .raw
  | .unesc _ _ _ _ => .unesc
  | .frame _ => .frame
  | .op _ => .op

/-- The RAW rows (R61). -/
inductive RawRow where
  | escd
  | escTrunc
  | esc
  | lit
  deriving DecidableEq, Repr

/-- The UNESC rows (R68). -/
inductive UnescRow where
  | seekStart
  | seekSkip
  | lenByte
  | payLast
  | payByte
  deriving DecidableEq, Repr

/-- The row of a raw byte: the first of R61 that applies. -/
def rawRow (esc last : Bool) (b : Byte) : RawRow :=
  if esc then .escd
  else if b = Config.esc then
    if last then .escTrunc else .esc
  else .lit

/-- The row of an unescaped byte (R68, R96). With no payload length to reach the byte is not the last (R96). -/
def unescRow (st : RxState) (len : Nat) (plen : Option PayloadLen) (b : Byte) : UnescRow :=
  match st with
  | .seekingStart => if b = Config.start then .seekStart else .seekSkip
  | .haveStart => .lenByte
  | .bufferingPayload =>
    if plen.any fun p => len + 1 == targetLen p then .payLast else .payByte

/-- RAW decoding (R61). -/
def decodeRaw (esc last : Bool) (b : Byte) : Instr :=
  match rawRow esc last b with
  | .escd => .escd b
  | .escTrunc => .escTrunc
  | .esc => .esc
  | .lit => .lit b

/-- UNESC decoding (R68). -/
def decodeUnesc (st : RxState) (len : Nat) (plen : Option PayloadLen) (b : Byte) : Instr :=
  match unescRow st len plen b with
  | .seekStart => .seekStart
  | .seekSkip => .seekSkip b
  | .lenByte => .lenByte b
  | .payLast => .payLast b
  | .payByte => .payByte b

/-- The row of a checksum-valid frame by the name of its type byte; no name is FT_UNKNOWN (R69). -/
def decodeType (k : Option FrameType) (f : List Byte) : Instr :=
  match k with
  | some .atCommand => .ftAtCommand f
  | some .atCommandQueue => .ftAtCommandQueue f
  | some .zbTxRequest => .ftZbTxRequest f
  | some .explicitAddrCmd => .ftExplicitAddrCmd f
  | some .remoteCmdRequest => .ftRemoteCmdRequest f
  | some .createSourceRoute => .ftCreateSourceRoute f
  | some .atCommandResponse => .ftAtCommandResponse f
  | some .modemStatus => .ftModemStatus f
  | some .zbTxStatus => .ftZbTxStatus f
  | some .zbRxPacket => .ftZbRxPacket f
  | some .zbExplicitRx => .ftZbExplicitRx f
  | some .zbIoSampleRx => .ftZbIoSampleRx f
  | some .sensorRead => .ftSensorRead f
  | some .nodeId => .ftNodeId f
  | some .remoteCmdResponse => .ftRemoteCmdResponse f
  | some .otaFwUpdateStatus => .ftOtaFwUpdateStatus f
  | some .routeRecord => .ftRouteRecord f
  | none => .ftUnknown f

/-- FRAME decoding: the checksum is judged before the type byte is read (R75, R158). -/
def decodeFrame (f : List Byte) : Instr :=
  if csumOk f then decodeType ((memRead8 f Config.typeOff).bind FrameType.ofByte) f else .csumBad f

/-- OP decoding, by name (R73). -/
def decodeOp : Op → Instr
  | .feed c => .feed c
  | .reset => .reset

/-- The row a symbol decodes to. Every symbol has exactly one (R60, R72). -/
def decode : Symbol → Instr
  | .raw esc last b => decodeRaw esc last b
  | .unesc st len plen b => decodeUnesc st len plen b
  | .frame f => decodeFrame f
  | .op o => decodeOp o

/-- A symbol that stands for the instruction: its byte, frame or operation, with a context its row asks for. Where
several contexts do, the one nearest to an empty buffer and the shortest length (R61, R68). -/
def encode : Instr → Symbol
  | .escd b => .raw true false b
  | .escTrunc => .raw false true Config.esc
  | .esc => .raw false false Config.esc
  | .lit b => .raw false false b
  | .seekStart => .unesc .seekingStart 0 none Config.start
  | .seekSkip b => .unesc .seekingStart 0 none b
  | .lenByte b => .unesc .haveStart 1 none b
  | .payLast b => .unesc .bufferingPayload 3 (some 0) b
  | .payByte b => .unesc .bufferingPayload 3 (some 1) b
  | .csumBad f => .frame f
  | .ftAtCommand f => .frame f
  | .ftAtCommandQueue f => .frame f
  | .ftZbTxRequest f => .frame f
  | .ftExplicitAddrCmd f => .frame f
  | .ftRemoteCmdRequest f => .frame f
  | .ftCreateSourceRoute f => .frame f
  | .ftAtCommandResponse f => .frame f
  | .ftModemStatus f => .frame f
  | .ftZbTxStatus f => .frame f
  | .ftZbRxPacket f => .frame f
  | .ftZbExplicitRx f => .frame f
  | .ftZbIoSampleRx f => .frame f
  | .ftSensorRead f => .frame f
  | .ftNodeId f => .frame f
  | .ftRemoteCmdResponse f => .frame f
  | .ftOtaFwUpdateStatus f => .frame f
  | .ftRouteRecord f => .frame f
  | .ftUnknown f => .frame f
  | .feed c => .op (.feed c)
  | .reset => .op .reset

/-- The byte the table's `match` and `mask` apply to: the byte itself, or the type byte of a frame (R75). -/
def Symbol.tableByte : Symbol → Option Byte
  | .raw _ _ b => some b
  | .unesc _ _ _ b => some b
  | .frame f => memRead8 f Config.typeOff
  | .op _ => none

/-- The bit pattern of an opcode table row: a byte fits when `b & mask = value` (R75). -/
structure BitPattern where
  value : Byte
  mask : Byte
  deriving DecidableEq, Repr

/-- The byte fits the pattern (R75). -/
def BitPattern.fits (p : BitPattern) (b : Byte) : Bool :=
  b &&& p.mask == p.value

/-- A pattern that every byte fits. -/
def BitPattern.any : BitPattern := ⟨0x00, 0x00⟩

/-- A pattern that one byte fits. -/
def BitPattern.only (b : Byte) : BitPattern := ⟨b, 0xFF⟩

/-- The row's `match` and `mask` in the opcode table; the two OP rows have none (R75). -/
def Instr.pattern : Instr → Option BitPattern
  | .escd _ => some .any
  | .escTrunc => some (.only Config.esc)
  | .esc => some (.only Config.esc)
  | .lit _ => some .any
  | .seekStart => some (.only Config.start)
  | .seekSkip _ => some .any
  | .lenByte _ => some .any
  | .payLast _ => some .any
  | .payByte _ => some .any
  | .csumBad _ => some .any
  | .ftAtCommand _ => some (.only FrameType.atCommand.code)
  | .ftAtCommandQueue _ => some (.only FrameType.atCommandQueue.code)
  | .ftZbTxRequest _ => some (.only FrameType.zbTxRequest.code)
  | .ftExplicitAddrCmd _ => some (.only FrameType.explicitAddrCmd.code)
  | .ftRemoteCmdRequest _ => some (.only FrameType.remoteCmdRequest.code)
  | .ftCreateSourceRoute _ => some (.only FrameType.createSourceRoute.code)
  | .ftAtCommandResponse _ => some (.only FrameType.atCommandResponse.code)
  | .ftModemStatus _ => some (.only FrameType.modemStatus.code)
  | .ftZbTxStatus _ => some (.only FrameType.zbTxStatus.code)
  | .ftZbRxPacket _ => some (.only FrameType.zbRxPacket.code)
  | .ftZbExplicitRx _ => some (.only FrameType.zbExplicitRx.code)
  | .ftZbIoSampleRx _ => some (.only FrameType.zbIoSampleRx.code)
  | .ftSensorRead _ => some (.only FrameType.sensorRead.code)
  | .ftNodeId _ => some (.only FrameType.nodeId.code)
  | .ftRemoteCmdResponse _ => some (.only FrameType.remoteCmdResponse.code)
  | .ftOtaFwUpdateStatus _ => some (.only FrameType.otaFwUpdateStatus.code)
  | .ftRouteRecord _ => some (.only FrameType.routeRecord.code)
  | .ftUnknown _ => some .any
  | .feed _ => none
  | .reset => none

/-- A CompleteFrame of 20 payload bytes (the length of the source's own example), all zero but the type byte `t`,
with its checksum (R66). -/
def zeroFrame (t : Byte) : List Byte :=
  let payload := t :: List.replicate 19 0
  [Config.start, 0x00, 0x14] ++ payload ++ [txChecksum payload]

/-- The symbol a bare table word stands for. DESIGN CHOICE (log entry 5), for the host's questions about single rows
only, safe: eight bits do not carry the context of R60, so a named type byte is read as the type of a frame of
zeros, the delimiter as an unescaped byte of a block that seeks, any other byte as a raw byte that is not the last
of its chunk. -/
def tableSymbol (b : Byte) : Symbol :=
  if (FrameType.ofByte b).isSome then .frame (zeroFrame b)
  else if b = Config.start then .unesc .seekingStart 0 none b
  else .raw false false b

/-- The instruction the decoder reads from a bare table word: eight bits, in the context of `tableSymbol`. The two
OP rows have no bits. -/
def decodeTableWord (nbits w : Nat) : Option Instr :=
  if nbits = 8 ∧ w < 256 then some (decode (tableSymbol (BitVec.ofNat 8 w))) else none

end Sys2Proof
end

