-- ==== Sys2Proof/Machine/State.lean ====
section
/-! DEFINITION. The state of one instance (R20 to R24, R31, R34), what comes in (R150) and what goes out (R74, R153),
the ways a step can stop, and the state after reset (R32, R181). -/

namespace Sys2Proof.Machine

/-- The conditions that are reported (R160, R74): a report carries its kind and nothing else (D17). -/
inductive Report where
  /-- A dangling 0x7D at the end of a chunk (R162). -/
  | truncatedEscape
  /-- A CompleteFrame fails the checksum (R163). -/
  | checksumMismatch
  /-- A checksum-valid type 0x92 frame is shorter than 22 bytes (R164). -/
  | malformedFrame
  deriving DecidableEq, Repr

/-- One event of the trace (R74). -/
inductive Event where
  /-- The outcome of a decoded type 0x92 frame: the 16-bit value and nothing else (R121). -/
  | ioSample (v : Word16)
  /-- The outcome of any other valid frame: a copy of all its bytes (R124, R55, D6). -/
  | unknown (bytes : List Byte)
  /-- A report (R161). -/
  | report (r : Report)
  deriving DecidableEq, Repr

/-- One thing the host presents (R150): a whole operation, as the source's calls do and as a pulse on `CMD` does, or
one transfer on `IN`, a byte with the mark that it is the last of its chunk. -/
inductive Input where
  | op (o : Op)
  | transfer (b : Byte) (last : Bool)
  deriving DecidableEq, Repr

/-- The machine never faults: "invalid input degrades to 'this frame is dropped,' never to undefined behavior", and
no input needs a fault (U4, R72, R161). So there is no reason to give, and nothing raises one. -/
inductive Fault where
  deriving DecidableEq, Repr

/-- Why a step has no meaning. -/
inductive Refusal where
  /-- An instruction that exec does not model, by its table mnemonic. No arm raises it. Safe. -/
  | notModelled (mnemonic : String)
  /-- The host presents an operation between the first transfer of a chunk and its last: the host "must not" (R150,
  R185) and the situation has no meaning (D21). Raised by `step` alone. Safe. -/
  | overlappingOperations
  deriving DecidableEq, Repr

/-- One instance of the block. Between two host operations only `st` and `buf` hold anything (R20); `esc`, `unesc`
and `ready` are the transient values of one byte step (R24, R31, R34). -/
structure State where
  /-- The reassembler state register (R21). -/
  st : RxState
  /-- The FrameBuffer: the bytes at offsets 0 to `len(buf) - 1`, lowest first (R22, R40). -/
  buf : List Host.Cell
  /-- The filter's pending-escape flag (R24). -/
  esc : Bool
  /-- The unescaped byte the filter has output and the reassembler has not taken (R31 b, R151). -/
  unesc : Option Byte
  /-- The CompleteFrame the reassembler has produced and the validator has not judged (R31 c, R34 b). -/
  ready : Option (List Byte)
  /-- `IN` stands between the first transfer of a chunk and its last (R150). -/
  midChunk : Bool
  /-- What the host has presented and the block has not taken, earliest first (R150). -/
  input : List Input
  /-- The event trace, earliest first; the block never reads it (R153). -/
  trace : List Event
  deriving DecidableEq, Repr

/-- The four states of R90: the register's three, and FRAME_READY while a completed frame awaits its row. -/
inductive Phase where
  | seekingStart
  | haveStart
  | bufferingPayload
  | frameReady
  deriving DecidableEq, Repr

/-- The machine right after reset: SEEKING_START with an empty buffer and no pending escape (R32, R181). Nothing is
waiting on any interface and nothing has been output (log entries 1, 2 and 3). -/
def State.reset : State where
  st := .seekingStart
  buf := []
  esc := false
  unesc := none
  ready := none
  midChunk := false
  input := []
  trace := []

end Sys2Proof.Machine
end

