-- ==== Sys2Proof/Machine/Ops.lean ====
section
/-! DEFINITION. The named operations: the FrameBuffer's reads and its one write (R44, R45), the derived lengths (R23),
reporting a condition (R161), and the setters through which every meaning changes the state. -/

namespace Sys2Proof.Machine

/-- `len` of a buffer (R22). -/
def Memory.len (m : List Host.Cell) : Nat :=
  m.length

/-- `MemRead(addr, 1)`. An address that holds no byte has no value: what lies beyond `len(buf)` is read by no rule
(R44, R46, R32). -/
def Memory.read (m : List Host.Cell) (addr : Nat) : Option Byte :=
  m.lookup addr

/-- `MemWrite(len(buf), 1, b)`: the append, the only write there is (R45). -/
def Memory.append (m : List Host.Cell) (b : Byte) : List Host.Cell :=
  m ++ [(Memory.len m, b)]

/-- The buffer's bytes in the order of their offsets, the copy a CompleteFrame is (R95). -/
def Memory.bytes (m : List Host.Cell) : List Byte :=
  m.map Prod.snd

/-- The canonical form: the addresses are 0, 1, ..., `len - 1` in this order, so they rise strictly, no valid offset
is left out, and equal buffers are equal data (R40). -/
def Memory.wf (m : List Host.Cell) : Bool :=
  m.map Prod.fst == List.range m.length

/-- A buffer that holds the given bytes from offset 0 on. -/
def Memory.ofBytes (bs : List Byte) : List Host.Cell :=
  bs.foldl Memory.append []

/-- `plen`, defined once the buffer holds three bytes (R23). -/
def State.plen (s : State) : Option PayloadLen :=
  if Config.hdrBytes ≤ Memory.len s.buf then
    (Memory.read s.buf 1).bind fun hi => (Memory.read s.buf 2).map fun lo => bePair Config.lenBits hi lo
  else none

/-- `target`, the total length of the frame in progress, defined where `plen` is (R23). -/
def State.target (s : State) : Option Nat :=
  s.plen.map targetLen

/-- The state of R90 the block is in: FRAME_READY while a completed frame awaits its row (R21, R34 a). -/
def State.phase (s : State) : Phase :=
  if s.ready.isSome then .frameReady
  else match s.st with
    | .seekingStart => .seekingStart
    | .haveStart => .haveStart
    | .bufferingPayload => .bufferingPayload

/-- The 2-bit code of a state (D9). -/
def Phase.code : Phase → BitVec 2
  | .seekingStart => Config.codeSeekingStart
  | .haveStart => Config.codeHaveStart
  | .bufferingPayload => Config.codeBufferingPayload
  | .frameReady => Config.codeFrameReady

/-- `emit`: append one event at the end of the trace (R153). -/
def emit (e : Event) (s : State) : State :=
  { s with trace := s.trace ++ [e] }

/-- Taking a condition: append its report and do nothing else. Nothing is saved, no mode changes, control goes
nowhere, and there is nothing to return from (R161, R170, R171). -/
def raise (r : Report) (s : State) : State :=
  emit (.report r) s

/-- Set the pending-escape flag (R24). -/
def setEsc (v : Bool) (s : State) : State :=
  { s with esc := v }

/-- Hand an unescaped byte to the reassembler: `u <- u ++ [b]` of R81 and R83. -/
def handByte (b : Byte) (s : State) : State :=
  { s with unesc := some b }

/-- Hand a CompleteFrame to the validator: the start of `handle(f)` (R95, R158). -/
def handFrame (f : List Byte) (s : State) : State :=
  { s with ready := some f }

/-- Write the reassembler's two registers together (R20). -/
def setRx (st : RxState) (buf : List Host.Cell) (s : State) : State :=
  { s with st := st, buf := buf }

/-- The reassembler takes the byte handed to it. -/
def takeByte (s : State) : State :=
  { s with unesc := none }

/-- The validator takes the frame handed to it. -/
def takeFrame (s : State) : State :=
  { s with ready := none }

end Sys2Proof.Machine
end

