-- ==== Sys2Proof/Machine/Dispatcher.lean ====
section
/-! DEFINITION. The Checksum Validator and the Frame Dispatcher: the meanings of the nineteen FRAME rows (R112, R121,
R122, R124, R127 to R142), and `handle`, what the two do with one CompleteFrame (R120, R158). -/

namespace Sys2Proof.Machine

/-- R112: the frame is dropped and reported; its type byte plays no part. -/
def dropChecksum (s : State) : State :=
  raise .checksumMismatch s

/-- R124: pass the whole frame on. -/
def passUnknown (f : List Byte) (s : State) : State :=
  emit (.unknown f) s

/-- The 16-bit sample of a type 0x92 frame, where the frame is long enough for its two offsets (R71, R121, R122). -/
def sampleOf (f : List Byte) : Option Word16 :=
  if f.length < Config.minIoSampleLen then none else memReadPair 16 f Config.sampleHiOff Config.sampleLoOff

/-- R121, R122: the value at offsets 20 and 21, or MalformedFrame for a frame shorter than 22 bytes. No field but
these is read: that one analog sample is present is a precondition on the reader of the outcome, not a check (R123). -/
def decodeIoSample (f : List Byte) (s : State) : State :=
  match sampleOf f with
  | some v => emit (.ioSample v) s
  | none => raise .malformedFrame s

/-- `dispatch(f)` for a checksum-valid frame (R120). -/
def dispatch (f : List Byte) (s : State) : State :=
  if typeIs f Config.ftIoSample then decodeIoSample f s else passUnknown f s

/-- `handle(f)`: the validator, then the dispatcher; one event (R158). -/
def handle (f : List Byte) (s : State) : State :=
  if csumOk f then dispatch f s else dropChecksum s

/-- CSUM_BAD (R112). -/
def execCsumBad (_f : List Byte) (s : State) : Host.Outcome State Fault Refusal :=
  .next (dropChecksum s)

/-- FT_AT_COMMAND (R127). -/
def execFtAtCommand (f : List Byte) (s : State) : Host.Outcome State Fault Refusal :=
  .next (passUnknown f s)

/-- FT_AT_COMMAND_QUEUE (R128). -/
def execFtAtCommandQueue (f : List Byte) (s : State) : Host.Outcome State Fault Refusal :=
  .next (passUnknown f s)

/-- FT_ZB_TX_REQUEST (R129). -/
def execFtZbTxRequest (f : List Byte) (s : State) : Host.Outcome State Fault Refusal :=
  .next (passUnknown f s)

/-- FT_EXPLICIT_ADDR_CMD (R130). -/
def execFtExplicitAddrCmd (f : List Byte) (s : State) : Host.Outcome State Fault Refusal :=
  .next (passUnknown f s)

/-- FT_REMOTE_CMD_REQUEST (R131). -/
def execFtRemoteCmdRequest (f : List Byte) (s : State) : Host.Outcome State Fault Refusal :=
  .next (passUnknown f s)

/-- FT_CREATE_SOURCE_ROUTE (R132). -/
def execFtCreateSourceRoute (f : List Byte) (s : State) : Host.Outcome State Fault Refusal :=
  .next (passUnknown f s)

/-- FT_AT_COMMAND_RESPONSE (R133). -/
def execFtAtCommandResponse (f : List Byte) (s : State) : Host.Outcome State Fault Refusal :=
  .next (passUnknown f s)

/-- FT_MODEM_STATUS (R134). -/
def execFtModemStatus (f : List Byte) (s : State) : Host.Outcome State Fault Refusal :=
  .next (passUnknown f s)

/-- FT_ZB_TX_STATUS (R135). -/
def execFtZbTxStatus (f : List Byte) (s : State) : Host.Outcome State Fault Refusal :=
  .next (passUnknown f s)

/-- FT_ZB_RX_PACKET (R136). -/
def execFtZbRxPacket (f : List Byte) (s : State) : Host.Outcome State Fault Refusal :=
  .next (passUnknown f s)

/-- FT_ZB_EXPLICIT_RX (R137). -/
def execFtZbExplicitRx (f : List Byte) (s : State) : Host.Outcome State Fault Refusal :=
  .next (passUnknown f s)

/-- FT_ZB_IO_SAMPLE_RX (R121, R122). -/
def execFtZbIoSampleRx (f : List Byte) (s : State) : Host.Outcome State Fault Refusal :=
  .next (decodeIoSample f s)

/-- FT_SENSOR_READ (R138). -/
def execFtSensorRead (f : List Byte) (s : State) : Host.Outcome State Fault Refusal :=
  .next (passUnknown f s)

/-- FT_NODE_ID (R139). -/
def execFtNodeId (f : List Byte) (s : State) : Host.Outcome State Fault Refusal :=
  .next (passUnknown f s)

/-- FT_REMOTE_CMD_RESPONSE (R140). -/
def execFtRemoteCmdResponse (f : List Byte) (s : State) : Host.Outcome State Fault Refusal :=
  .next (passUnknown f s)

/-- FT_OTA_FW_UPDATE_STATUS (R141). -/
def execFtOtaFwUpdateStatus (f : List Byte) (s : State) : Host.Outcome State Fault Refusal :=
  .next (passUnknown f s)

/-- FT_ROUTE_RECORD (R142). -/
def execFtRouteRecord (f : List Byte) (s : State) : Host.Outcome State Fault Refusal :=
  .next (passUnknown f s)

/-- FT_UNKNOWN (R124). -/
def execFtUnknown (f : List Byte) (s : State) : Host.Outcome State Fault Refusal :=
  .next (passUnknown f s)

end Sys2Proof.Machine
end

