-- ==== Sys2Proof/Machine/Filter.lean ====
section
/-! DEFINITION. The Escape Filter: the meanings of the four RAW rows (R81 to R84) and the filter step on one raw byte
(R80, R151). -/

namespace Sys2Proof.Machine

/-- R81: hand the byte on unchanged. -/
def filterLit (b : Byte) (s : State) : State :=
  handByte b s

/-- R82: nothing is output, the next byte of the chunk is the second of the pair. -/
def filterEsc (s : State) : State :=
  setEsc true s

/-- R83: hand on the byte with bit 5 flipped; the pair is complete. -/
def filterEscd (b : Byte) (s : State) : State :=
  setEsc false (handByte (b ^^^ Config.escXor) s)

/-- R84: the byte is dropped and no escape is carried on. Every byte of the chunk before it has had its whole effect
and none follows it, so the report is appended here, as the last event of its FEED (R153, R162, R170). -/
def filterEscTrunc (s : State) : State :=
  raise .truncatedEscape (setEsc false s)

/-- The filter step on one raw byte of a chunk: the row R61 selects, on that byte (R80, R151). -/
def filterStep (b : Byte) (last : Bool) (s : State) : State :=
  match rawRow s.esc last b with
  | .escd => filterEscd b s
  | .escTrunc => filterEscTrunc s
  | .esc => filterEsc s
  | .lit => filterLit b s

/-- LIT (R81). -/
def execLit (b : Byte) (s : State) : Host.Outcome State Fault Refusal :=
  .next (filterLit b s)

/-- ESC (R82). -/
def execEsc (s : State) : Host.Outcome State Fault Refusal :=
  .next (filterEsc s)

/-- ESCD (R83). -/
def execEscd (b : Byte) (s : State) : Host.Outcome State Fault Refusal :=
  .next (filterEscd b s)

/-- ESC_TRUNC (R84). -/
def execEscTrunc (s : State) : Host.Outcome State Fault Refusal :=
  .next (filterEscTrunc s)

end Sys2Proof.Machine
end

