-- ==== Sys2Proof/Machine/Reassembler.lean ====
section
/-! DEFINITION. The Frame Reassembler: the meanings of the five UNESC rows (R91 to R95) and `rx`, its step on one
unescaped byte (R96). -/

namespace Sys2Proof.Machine

/-- R91: the byte is discarded, silently. -/
def rxSeekSkip (_b : Byte) (s : State) : State :=
  s

/-- R92: the buffer starts with the delimiter. -/
def rxSeekStart (s : State) : State :=
  setRx .haveStart (Memory.append [] Config.start) s

/-- R93: append a length byte; with three bytes the payload length is known. -/
def rxLenByte (b : Byte) (s : State) : State :=
  let buf := Memory.append s.buf b
  setRx (if Memory.len buf = Config.hdrBytes then .bufferingPayload else s.st) buf s

/-- R94: append a byte that does not complete the frame. -/
def rxPayByte (b : Byte) (s : State) : State :=
  setRx s.st (Memory.append s.buf b) s

/-- R95: append the last byte, passing through FRAME_READY; the frame is a copy of the buffer, the buffer is emptied,
the search starts again, and the frame is handed to the validator, whose row is the next thing the block does (R158,
log entry 6). -/
def rxPayLast (b : Byte) (s : State) : State :=
  let f := Memory.bytes (Memory.append s.buf b)
  handFrame f (setRx .seekingStart [] s)

/-- `rx`: the reassembler's step on one unescaped byte, the row R68 selects (R96). -/
def rx (b : Byte) (s : State) : State :=
  match unescRow s.st (Memory.len s.buf) s.plen b with
  | .seekStart => rxSeekStart s
  | .seekSkip => rxSeekSkip b s
  | .lenByte => rxLenByte b s
  | .payLast => rxPayLast b s
  | .payByte => rxPayByte b s

/-- SEEK_SKIP (R91). -/
def execSeekSkip (b : Byte) (s : State) : Host.Outcome State Fault Refusal :=
  .next (rxSeekSkip b s)

/-- SEEK_START (R92). -/
def execSeekStart (s : State) : Host.Outcome State Fault Refusal :=
  .next (rxSeekStart s)

/-- LEN_BYTE (R93). -/
def execLenByte (b : Byte) (s : State) : Host.Outcome State Fault Refusal :=
  .next (rxLenByte b s)

/-- PAY_BYTE (R94). -/
def execPayByte (b : Byte) (s : State) : Host.Outcome State Fault Refusal :=
  .next (rxPayByte b s)

/-- PAY_LAST (R95). -/
def execPayLast (b : Byte) (s : State) : Host.Outcome State Fault Refusal :=
  .next (rxPayLast b s)

end Sys2Proof.Machine
end

