-- ==== Sys2Proof/Machine/HostOps.lean ====
section
/-! DEFINITION. The host operations FEED and RESET (R151, R152), and the byte step FEED is made of (R48). -/

namespace Sys2Proof.Machine

/-- The validator and dispatcher take the frame that awaits them, if one does (R158). -/
def settleFrame (s : State) : State :=
  match s.ready with
  | some f => handle f (takeFrame s)
  | none => s

/-- The reassembler takes the byte that awaits it, if one does, and a frame it completes is handled (R151, R96). -/
def settle (s : State) : State :=
  match s.unesc with
  | some b => settleFrame (rx b (takeByte s))
  | none => settleFrame s

/-- One byte step: filter, then reassembler, then, if a frame is complete, validator and dispatcher (R48). -/
def byteStep (b : Byte) (last : Bool) (s : State) : State :=
  settle (filterStep b last s)

/-- The byte steps of a chunk, strictly in order; the last byte is the one no byte follows (R151). -/
def feedBytes : List Byte → State → State
  | [], s => s
  | b :: rest, s => feedBytes rest (byteStep b rest.isEmpty s)

/-- `FEED(c)`: the byte steps of the chunk with no escape pending before or after; ESC_TRUNC, which only the last
byte can be, has then reported TruncatedEscape as the last event (R151, R84). -/
def feedChunk (c : List Byte) (s : State) : State :=
  setEsc false (feedBytes c (setEsc false s))

/-- `RESET`: the frame in progress is discarded; no event is appended and none withdrawn (R152, R182). -/
def resetBlock (s : State) : State :=
  setEsc false (setRx .seekingStart [] s)

/-- FEED (R151). -/
def execFeed (c : List Byte) (s : State) : Host.Outcome State Fault Refusal :=
  .next (feedChunk c s)

/-- RESET (R152). -/
def execReset (s : State) : Host.Outcome State Fault Refusal :=
  .next (resetBlock s)

end Sys2Proof.Machine
end

