-- ==== Sys2Proof/Machine/Dispatch.lean ====
section
/-! DEFINITION. exec: one arm per row of the opcode table, each a call of that row's meaning. -/

namespace Sys2Proof.Machine

/-- The effect of one decoded instruction. -/
def exec (i : Instr) (s : State) : Host.Outcome State Fault Refusal :=
  match i with
  | .escd b => Sys2Proof.Machine.execEscd b s
  | .escTrunc => Sys2Proof.Machine.execEscTrunc s
  | .esc => Sys2Proof.Machine.execEsc s
  | .lit b => Sys2Proof.Machine.execLit b s
  | .seekStart => Sys2Proof.Machine.execSeekStart s
  | .seekSkip b => Sys2Proof.Machine.execSeekSkip b s
  | .lenByte b => Sys2Proof.Machine.execLenByte b s
  | .payLast b => Sys2Proof.Machine.execPayLast b s
  | .payByte b => Sys2Proof.Machine.execPayByte b s
  | .csumBad f => Sys2Proof.Machine.execCsumBad f s
  | .ftAtCommand f => Sys2Proof.Machine.execFtAtCommand f s
  | .ftAtCommandQueue f => Sys2Proof.Machine.execFtAtCommandQueue f s
  | .ftZbTxRequest f => Sys2Proof.Machine.execFtZbTxRequest f s
  | .ftExplicitAddrCmd f => Sys2Proof.Machine.execFtExplicitAddrCmd f s
  | .ftRemoteCmdRequest f => Sys2Proof.Machine.execFtRemoteCmdRequest f s
  | .ftCreateSourceRoute f => Sys2Proof.Machine.execFtCreateSourceRoute f s
  | .ftAtCommandResponse f => Sys2Proof.Machine.execFtAtCommandResponse f s
  | .ftModemStatus f => Sys2Proof.Machine.execFtModemStatus f s
  | .ftZbTxStatus f => Sys2Proof.Machine.execFtZbTxStatus f s
  | .ftZbRxPacket f => Sys2Proof.Machine.execFtZbRxPacket f s
  | .ftZbExplicitRx f => Sys2Proof.Machine.execFtZbExplicitRx f s
  | .ftZbIoSampleRx f => Sys2Proof.Machine.execFtZbIoSampleRx f s
  | .ftSensorRead f => Sys2Proof.Machine.execFtSensorRead f s
  | .ftNodeId f => Sys2Proof.Machine.execFtNodeId f s
  | .ftRemoteCmdResponse f => Sys2Proof.Machine.execFtRemoteCmdResponse f s
  | .ftOtaFwUpdateStatus f => Sys2Proof.Machine.execFtOtaFwUpdateStatus f s
  | .ftRouteRecord f => Sys2Proof.Machine.execFtRouteRecord f s
  | .ftUnknown f => Sys2Proof.Machine.execFtUnknown f s
  | .feed c => Sys2Proof.Machine.execFeed c s
  | .reset => Sys2Proof.Machine.execReset s

end Sys2Proof.Machine
end

