-- ==== Sys2Proof/Machine/Fetch.lean ====
section
/-! DEFINITION. What the block looks at next. A byte step runs to its end before the next raw byte is looked at
(R48): a completed frame goes first, then an unescaped byte, then what the host has presented, earliest first. -/

namespace Sys2Proof.Machine

/-- What stands next in line. -/
inductive Fetched where
  /-- Nothing is waiting (R194). -/
  | idle
  /-- The host overlaps operations (R185, D21). -/
  | overlap
  /-- A symbol to decode, and the state once it has been taken from where it stood. -/
  | got (sym : Symbol) (rest : State)
  deriving DecidableEq, Repr

/-- Take a transfer from `IN`: `esc` is 0 at the first transfer of a chunk (R24, R150, R151). -/
def fetchTransfer (b : Byte) (last : Bool) (rest : List Input) (s : State) : Fetched :=
  let esc := s.midChunk && s.esc
  .got (.raw esc last b) { s with esc := esc, midChunk := !last, input := rest }

/-- Take an operation, unless `IN` stands inside a chunk (R150, R185). -/
def fetchOp (o : Op) (rest : List Input) (s : State) : Fetched :=
  if s.midChunk then .overlap else .got (.op o) { s with input := rest }

/-- What the block looks at next (R48). -/
def fetch (s : State) : Fetched :=
  match s.ready with
  | some f => .got (.frame f) (takeFrame s)
  | none =>
    match s.unesc with
    | some b => .got (.unesc s.st (Memory.len s.buf) s.plen b) (takeByte s)
    | none =>
      match s.input with
      | [] => .idle
      | .transfer b last :: rest => fetchTransfer b last rest s
      | .op o :: rest => fetchOp o rest s

/-- Put a symbol where `fetch` finds it next: a frame before the validator, an unescaped byte before the reassembler
in the state that decodes it with an empty buffer, a raw byte or an operation before everything else the host has
presented. A raw byte that is not the last of its chunk is followed by one of zeros that is. -/
def placeSymbol (sym : Symbol) (s : State) : State :=
  match sym with
  | .frame f => { s with ready := some f }
  | .unesc st _ _ b => { s with ready := none, unesc := some b, st := st, buf := [] }
  | .raw esc last b =>
    { s with
      ready := none
      unesc := none
      esc := esc
      midChunk := esc
      input := .transfer b last :: (if last then [] else [.transfer 0x00 true]) ++ s.input }
  | .op o => { s with ready := none, unesc := none, midChunk := false, input := .op o :: s.input }

end Sys2Proof.Machine
end

