-- ==== Sys2Proof/Machine/Step.lean ====
section
/-! DEFINITION. One step: decode what stands next and run it. A host operation is one step (R10, D1); a chunk that
comes in transfers on IN takes effect byte by byte (R150). -/

namespace Sys2Proof.Machine

/-- One step. With nothing waiting the block is idle and stays as it is: "it accepts operations for ever" (R194). -/
def step (s : State) : Host.Outcome State Fault Refusal :=
  match fetch s with
  | .idle => .next s
  | .overlap => .refused .overlappingOperations
  | .got sym rest => exec (decode sym) rest

/-- The state in which a bare table word stands where `step` looks next (log entries 1 and 5). -/
def State.withFetchWord (s : State) (nbits w : Nat) : State :=
  if nbits = 8 ∧ w < 256 then placeSymbol (tableSymbol (BitVec.ofNat 8 w)) s else s

end Sys2Proof.Machine
end

