-- ==== Sys2Proof/Machine/Events.lean ====
section
/-! DEFINITION. How events go out on OUT: class, kind code and operand (R74, R150), the cause codes of the taxonomy
(R160), and the outcomes a `feed` call returns (R154). -/

namespace Sys2Proof.Machine

/-- The two classes of events (R74). -/
inductive EventClass where
  | outcome
  | report
  deriving DecidableEq, Repr

/-- The class of an event (R74). -/
def Event.eventClass : Event → EventClass
  | .ioSample _ => .outcome
  | .unknown _ => .outcome
  | .report _ => .report

/-- The cause code of a report (R160, D10). -/
def Report.cause : Report → Nat
  | .truncatedEscape => 1
  | .checksumMismatch => 2
  | .malformedFrame => 3

/-- The kind code within the class: 0 and 1 for the outcomes, the cause for a report (R74, D10). -/
def Event.kindCode : Event → Nat
  | .ioSample _ => 0
  | .unknown _ => 1
  | .report r => r.cause

/-- The code of the condition an event stands for; UnrecognizedFrameType, 4, is the Unknown outcome and no report
(R160, R165). -/
def Event.cause : Event → Option Nat
  | .ioSample _ => none
  | .unknown _ => some 4
  | .report r => some r.cause

/-- One transfer on `OUT`: class, kind code, and the operand the kind has (R150, R74). -/
structure OutTransfer where
  cls : EventClass
  code : Nat
  value : Option Word16
  bytes : Option (List Byte)
  deriving DecidableEq, Repr

/-- The transfer that carries an event (R150). -/
def Event.onOut (e : Event) : OutTransfer where
  cls := e.eventClass
  code := e.kindCode
  value := match e with
    | .ioSample v => some v
    | .unknown _ => none
    | .report _ => none
  bytes := match e with
    | .ioSample _ => none
    | .unknown f => some f
    | .report _ => none

/-- Everything sent on `OUT` so far, in order (R150, R153). -/
def State.onOut (s : State) : List OutTransfer :=
  s.trace.map Event.onOut

/-- The event is of the outcome class (R154). -/
def Event.isOutcome (e : Event) : Bool :=
  e.eventClass == .outcome

/-- What a `feed` call returns: the outcomes among the events appended since the trace had `n` events (R154). -/
def State.outcomesSince (n : Nat) (s : State) : List Event :=
  (s.trace.drop n).filter Event.isOutcome

end Sys2Proof.Machine
end

