-- ==== Sys2Proof/Machine/Instances.lean ====
section
/-! DEFINITION. N_INST independent instances: the product of copies of the one-instance machine (R33, R175, D22). -/

namespace Sys2Proof.Machine

/-- The instances, each with its own state and nothing shared (R33). -/
abbrev Instances := List State

/-- `n` instances, each in the reset state (R175). -/
def Instances.reset (n : Nat) : Instances :=
  List.replicate n State.reset

/-- Give one more input to instance `k`; an index that names no instance gives it to none. -/
def Instances.present (k : Nat) (x : Input) (m : Instances) : Instances :=
  m.modify k fun s => { s with input := s.input ++ [x] }

/-- One step of instance `k`; the others do nothing (R175). -/
def Instances.stepAt (k : Nat) (m : Instances) : Host.Outcome Instances Fault Refusal :=
  match m[k]? with
  | none => .next m
  | some s =>
    match step s with
    | .next t => .next (m.set k t)
    | .fault r => .fault r
    | .refused r => .refused r

end Sys2Proof.Machine
end

