-- ==== Sys2Proof/Machine/Reference.lean ====
section
/-! DEFINITION. The forms the spec gives beside the rows, in which claims are stated: the filter as a function of a
chunk (R85), the transmitter's stuffing (R63), the reassembler's step as one function (R96), FEED as the composition
of these (R151), a chunk as transfers on IN (R150). No meaning uses them. -/

namespace Sys2Proof.Machine

/-- `unescape(c)`: the unescaped bytes, and whether the chunk ends in a dangling 0x7D (R85). -/
def unescape : List Byte → List Byte × Bool
  | [] => ([], false)
  | [b] => if b = Config.esc then ([], true) else ([b], false)
  | b :: p :: rest =>
    if b = Config.esc then ((p ^^^ Config.escXor) :: (unescape rest).1, (unescape rest).2)
    else (b :: (unescape (p :: rest)).1, (unescape (p :: rest)).2)

/-- What one byte is sent as (R63). -/
def stuffByte (b : Byte) : List Byte :=
  if isStuffed b then [Config.esc, b ^^^ Config.escXor] else [b]

/-- `stuff(s)` (R63). -/
def stuff (bs : List Byte) : List Byte :=
  bs.flatMap stuffByte

/-- A frame as an escaping transmitter sends it: the first byte bare, the others stuffed (R76). -/
def wireForm : List Byte → List Byte
  | [] => []
  | b :: rest => b :: stuff rest

/-- R96's pseudocode of `rx`, with the length read after the append and `handle(f)` called at once, as it stands
there. -/
def rxR96 (b : Byte) (s : State) : State :=
  match s.st with
  | .seekingStart =>
    if b = Config.start then { s with buf := Memory.append [] Config.start, st := .haveStart } else s
  | .haveStart =>
    let s' := { s with buf := Memory.append s.buf b }
    if Memory.len s'.buf = 3 then { s' with st := .bufferingPayload } else s'
  | .bufferingPayload =>
    let s' := { s with buf := Memory.append s.buf b }
    if some (Memory.len s'.buf) = s'.target then
      handle (Memory.bytes s'.buf) { s' with buf := [], st := .seekingStart }
    else s'

/-- One unescaped byte through reassembler, validator and dispatcher. -/
def rxByte (s : State) (b : Byte) : State :=
  settleFrame (rx b s)

/-- A sequence of unescaped bytes through reassembler, validator and dispatcher, in order (R97). -/
def rxBytes (u : List Byte) (s : State) : State :=
  u.foldl rxByte s

/-- FEED in its second form: unescape the chunk, apply `rx` to each byte, then report a dangling escape (R151). -/
def feedByFunctions (c : List Byte) (s : State) : State :=
  let s' := setEsc false (rxBytes (unescape c).1 s)
  if (unescape c).2 then raise .truncatedEscape s' else s'

/-- A chunk as it comes on `IN`: its bytes in order, the last one marked (R150). -/
def transfers : List Byte → List Input
  | [] => []
  | b :: rest => .transfer b rest.isEmpty :: transfers rest

/-- The events that a sequence of operations leaves behind, and the state it ends in, one operation after the other
(R194). -/
def runOps (ops : List Op) (s : State) : State :=
  ops.foldl (fun s o => match o with
    | .feed c => feedChunk c s
    | .reset => resetBlock s) s

/-- The event `handle(f)` appends (R143). -/
def frameEvent (f : List Byte) : Event :=
  if csumOk f then
    if typeIs f Config.ftIoSample then
      match sampleOf f with
      | some v => .ioSample v
      | none => .report .malformedFrame
    else .unknown f
  else .report .checksumMismatch

end Sys2Proof.Machine
end

