-- ==== Sys2Proof/Safety.lean ====
section
/-! DEFINITION. What a sound state is, in the terms the claims use. -/

namespace Sys2Proof.Machine

/-- Items 1 to 4 of R30, over a buffer in canonical form: which state goes with which fill count, and that a buffer
that is not empty starts with the delimiter. -/
def State.rxInv (s : State) : Prop :=
  Memory.wf s.buf = true ∧
  (s.st = .seekingStart ↔ Memory.len s.buf = 0) ∧
  (s.st = .haveStart ↔ Memory.len s.buf = 1 ∨ Memory.len s.buf = 2) ∧
  (s.st = .bufferingPayload ↔
    3 ≤ Memory.len s.buf ∧ s.target.any (fun t => decide (Memory.len s.buf < t)) = true) ∧
  (1 ≤ Memory.len s.buf → Memory.read s.buf 0 = some Config.start)

/-- No byte and no frame is under way between two stages, as between any two byte steps (R31, R34). -/
def State.settled (s : State) : Prop :=
  s.unesc = none ∧ s.ready = none

/-- The state between two host operations (R20, R24): settled, no escape pending, `IN` between two chunks. -/
def State.resting (s : State) : Prop :=
  s.settled ∧ s.esc = false ∧ s.midChunk = false

/-- What holds before every step: R30; an escape is pending only inside a chunk and with nothing under way (R24); at
most one thing is under way, and a frame under way is a CompleteFrame that left the reassembler in its initial
state (R31 c, R64, R95). -/
def State.Inv (s : State) : Prop :=
  s.rxInv ∧
  (s.esc = true → s.midChunk = true ∧ s.settled) ∧
  (∀ b, s.unesc = some b → s.ready = none) ∧
  (∀ f, s.ready = some f → isCompleteFrame f = true ∧ s.st = .seekingStart ∧ s.buf = [])

/-- Every frame that has been passed on whole is a checksum-valid CompleteFrame of a type other than 0x92 (R112, R122,
R124). -/
def State.traceSound (s : State) : Prop :=
  ∀ f, Event.unknown f ∈ s.trace →
    isCompleteFrame f = true ∧ csumOk f = true ∧ typeIs f Config.ftIoSample = false

/-- `n` steps, stopping where one stops. -/
def steps : Nat → State → Host.Outcome State Fault Refusal
  | 0, s => .next s
  | n + 1, s =>
    match step s with
    | .next t => steps n t
    | .fault r => .fault r
    | .refused r => .refused r

/-- A checksum-valid frame of type `t` is the row `i`, and that row passes the whole frame on: one event is appended
and nothing else changes (R124, R125). -/
def passesWhole (t : Byte) (i : List Byte → Instr) : Prop :=
  ∀ f s, csumOk f = true → memRead8 f 3 = some t →
    decode (.frame f) = i f ∧ exec (i f) s = .next { s with trace := s.trace ++ [.unknown f] }

/-- The rows that write the FrameBuffer: the reassembler's but for SEEK_SKIP, and the host operations (R22, R45). -/
def mayWriteBuffer : Instr → Bool
  | .seekStart => true
  | .lenByte _ => true
  | .payLast _ => true
  | .payByte _ => true
  | .feed _ => true
  | .reset => true
  | .escd _ => false
  | .escTrunc => false
  | .esc => false
  | .lit _ => false
  | .seekSkip _ => false
  | .csumBad _ => false
  | .ftAtCommand _ => false
  | .ftAtCommandQueue _ => false
  | .ftZbTxRequest _ => false
  | .ftExplicitAddrCmd _ => false
  | .ftRemoteCmdRequest _ => false
  | .ftCreateSourceRoute _ => false
  | .ftAtCommandResponse _ => false
  | .ftModemStatus _ => false
  | .ftZbTxStatus _ => false
  | .ftZbRxPacket _ => false
  | .ftZbExplicitRx _ => false
  | .ftZbIoSampleRx _ => false
  | .ftSensorRead _ => false
  | .ftNodeId _ => false
  | .ftRemoteCmdResponse _ => false
  | .ftOtaFwUpdateStatus _ => false
  | .ftRouteRecord _ => false
  | .ftUnknown _ => false

end Sys2Proof.Machine
end

