-- ==== Sys2Proof/Certificates/Slice0/Obligations.lean ====
section
/-! DEFINITION. The statements for the provers. -/

open Sys2Proof Sys2Proof.Machine

/-! Encoding -/

/-- Every well-formed instruction is what its encoding decodes to, with every operand (R60, R61, R68, R69). -/
def Obligations.EncodedInstrDecodesToItself : Prop :=
  ∀ i : Instr, i.wellFormed = true → decode (encode i) = i

/-- What any symbol decodes to is well formed, if a frame is a CompleteFrame (R60, R72). -/
def Obligations.DecodedInstrIsWellFormed : Prop :=
  ∀ sym : Symbol, (∀ f, sym = .frame f → isCompleteFrame f = true) → (decode sym).wellFormed = true

/-- A few words written out from the encoding tables of R61, R68 and R69 decode to the rows they stand for. -/
def Obligations.SpecWordsDecodeToTheirRows : Prop :=
  decode (.raw true false 0x7E) = .escd 0x7E ∧
  decode (.raw false true 0x7D) = .escTrunc ∧
  decode (.raw false false 0x7D) = .esc ∧
  decode (.raw false true 0x11) = .lit 0x11 ∧
  decode (.unesc .seekingStart 0 none 0x7E) = .seekStart ∧
  decode (.unesc .haveStart 1 none 0x7E) = .lenByte 0x7E ∧
  decode (.unesc .bufferingPayload 5 (some 2) 0x6F) = .payLast 0x6F ∧
  decode (.unesc .bufferingPayload 4 (some 2) 0x06) = .payByte 0x06 ∧
  decode (.frame [0x7E, 0x00, 0x02, 0x8A, 0x06, 0x6F]) = .ftModemStatus [0x7E, 0x00, 0x02, 0x8A, 0x06, 0x6F] ∧
  decode (.frame [0x7E, 0x00, 0x02, 0x8A, 0x06, 0x6E]) = .csumBad [0x7E, 0x00, 0x02, 0x8A, 0x06, 0x6E] ∧
  decode (.op .reset) = .reset

/-! The step -/

/-- A step runs the instruction that what stands next decodes to: a completed frame, else an unescaped byte in the
reassembler's state, else a transfer on IN with the escape pending inside its chunk, else a host operation between two
chunks. The step takes it from where it stood and changes nothing else around exec (the order within a byte step is
R48's, the interface IN is R150's; that a stage's reaction is a step of its own, and the queue of inputs, are the
model's, log entries 1, 3 and 6). -/
def Obligations.StepRunsTheDecodedInstruction : Prop :=
  ∀ s : State,
    (∀ f, s.ready = some f → step s = exec (decode (.frame f)) { s with ready := none }) ∧
    (∀ b, s.ready = none → s.unesc = some b →
      step s = exec (decode (.unesc s.st (Memory.len s.buf) s.plen b)) { s with unesc := none }) ∧
    (∀ b last rest, s.settled → s.input = .transfer b last :: rest →
      step s = exec (decode (.raw (s.midChunk && s.esc) last b))
        { s with esc := s.midChunk && s.esc, midChunk := !last, input := rest }) ∧
    (∀ o rest, s.settled → s.midChunk = false → s.input = .op o :: rest →
      step s = exec (decode (.op o)) { s with input := rest })

/-- With nothing waiting the block is idle: the step leaves every field as it is (R194, and the model's choice of log
entry 1 that such a step is taken at all). -/
def Obligations.IdleStepChangesNothing : Prop :=
  ∀ s : State, s.settled → s.input = [] → step s = .next s

/-- An operation presented inside a chunk is refused by name: the situation has no meaning (D21; the stop is the
model's, log entry 7). -/
def Obligations.OperationInsideChunkIsRefused : Prop :=
  ∀ (s : State) (o : Op) (rest : List Input), s.settled → s.midChunk = true → s.input = .op o :: rest →
    step s = .refused .overlappingOperations

/-- Nothing else stops the block: every instruction answers a next state in every state, and a step that does not has
met an operation inside a chunk (U4, R72, R161). -/
def Obligations.NothingButOverlapStops : Prop :=
  (∀ (i : Instr) (s : State), ∃ t, exec i s = .next t) ∧
  ∀ s : State, (∃ t, step s = .next t) ∨
    (step s = .refused .overlappingOperations ∧ s.settled ∧ s.midChunk = true ∧ ∃ o rest, s.input = .op o :: rest)

/-! The Escape Filter -/

/-- R81: a byte other than 0x7D with no escape pending is handed on unchanged; no flag is written, nothing raised. -/
def Obligations.LitHandsTheByteOnUnchanged : Prop :=
  ∀ (b : Byte) (s : State),
    (∀ last, b ≠ 0x7D → decode (.raw false last b) = .lit b) ∧
    exec (.lit b) s = .next { s with unesc := some b }

/-- R82: 0x7D with a follower outputs nothing and makes an escape pending. -/
def Obligations.EscMakesAnEscapePending : Prop :=
  decode (.raw false false 0x7D) = .esc ∧ ∀ s : State, exec .esc s = .next { s with esc := true }

/-- R83: any byte after a pending escape, the last of its chunk or not, is handed on with bit 5 flipped and no other,
and the escape is no longer pending. -/
def Obligations.EscdFlipsBitFive : Prop :=
  ∀ (b : Byte) (s : State),
    (∀ last, decode (.raw true last b) = .escd b) ∧
    ∃ c : Byte, exec (.escd b) s = .next { s with esc := false, unesc := some c } ∧
      ∀ i, i < 8 → (c.getLsbD i = if i = 5 then !b.getLsbD i else b.getLsbD i)

/-- The row of R84: the dangling 0x7D is dropped, no escape stays pending (decision D3), and TruncatedEscape is
appended (in this step: log entry 4). -/
def Obligations.EscTruncReportsAndDropsTheByte : Prop :=
  decode (.raw false true 0x7D) = .escTrunc ∧
  ∀ s : State, exec .escTrunc s = .next { s with esc := false, trace := s.trace ++ [.report .truncatedEscape] }

/-- R84 for a whole FEED: a chunk that ends in a dangling 0x7D reports TruncatedEscape exactly once, as the last event
of its FEED; any other chunk never does (that the byte is forgotten and the rest of the chunk is processed are
decisions D3 and D4, the order of reports D5). -/
def Obligations.TruncatedEscapeIsLastAndOnce : Prop :=
  ∀ (c : List Byte) (s : State), s.settled →
    ∃ t es, exec (.feed c) s = .next t ∧ Event.report .truncatedEscape ∉ es ∧
      t.trace = s.trace ++ es ++ (if (unescape c).2 then [.report .truncatedEscape] else [])

/-- Unescaping what stuffing made of any bytes gives them back, not truncated, and a FEED of it gives the later stages
exactly those bytes; stuffing what unescaping made need not (R87, the spec's own derivation from the rows). -/
def Obligations.StuffedBytesComeBack : Prop :=
  ∀ u : List Byte, unescape (stuff u) = (u, false) ∧
    (∀ s : State, s.settled → exec (.feed (stuff u)) s = .next { rxBytes u s with esc := false }) ∧
    stuff (unescape [0x7D, 0x00]).1 ≠ [0x7D, 0x00]

/-- The function form of the filter on a chunk in two pieces, the first not truncated (R85, the spec's own
derivation). -/
def Obligations.UnescapeJoinsWhereNotTruncated : Prop :=
  ∀ c₁ c₂ : List Byte, (unescape c₁).2 = false →
    unescape (c₁ ++ c₂) = ((unescape c₁).1 ++ (unescape c₂).1, (unescape c₂).2)

/-! The Frame Reassembler -/

/-- R91: in SEEKING_START any byte but 0x7E is discarded with no effect at all. -/
def Obligations.SeekSkipDiscardsSilently : Prop :=
  ∀ (b : Byte) (s : State),
    (∀ len plen, b ≠ 0x7E → decode (.unesc .seekingStart len plen b) = .seekSkip b) ∧
    exec (.seekSkip b) s = .next s

/-- R92: in SEEKING_START the byte 0x7E makes the buffer that one byte, at offset 0, and the state HAVE_START. -/
def Obligations.SeekStartBeginsAFrame : Prop :=
  (∀ len plen, decode (.unesc .seekingStart len plen 0x7E) = .seekStart) ∧
  ∀ s : State, exec .seekStart s = .next { s with st := .haveStart, buf := [(0, 0x7E)] }

/-- R93: in HAVE_START any byte is appended; with three bytes the state is BUFFERING_PAYLOAD, else it stays. -/
def Obligations.LenByteAppendsAndCounts : Prop :=
  ∀ (b : Byte) (s : State),
    (∀ len plen, decode (.unesc .haveStart len plen b) = .lenByte b) ∧
    exec (.lenByte b) s = .next { s with
      st := if Memory.len s.buf + 1 = 3 then .bufferingPayload else s.st
      buf := s.buf ++ [(Memory.len s.buf, b)] }

/-- R94: in BUFFERING_PAYLOAD a byte that leaves the buffer short of `target` is appended and nothing else happens. -/
def Obligations.PayByteAppends : Prop :=
  ∀ (b : Byte) (s : State),
    (∀ len p, len + 1 < p.toNat + 4 → decode (.unesc .bufferingPayload len (some p) b) = .payByte b) ∧
    exec (.payByte b) s = .next { s with buf := s.buf ++ [(Memory.len s.buf, b)] }

/-- The reassembler's part of R95: the byte that fills the buffer to `target` completes the frame, a copy of all its
bytes goes to the validator, the buffer is emptied and the search starts again. -/
def Obligations.PayLastCompletesTheFrame : Prop :=
  ∀ (b : Byte) (s : State),
    (∀ len p, len + 1 = p.toNat + 4 → decode (.unesc .bufferingPayload len (some p) b) = .payLast b) ∧
    exec (.payLast b) s = .next { s with
      st := .seekingStart, buf := [], ready := some (Memory.bytes s.buf ++ [b]) }

/-- R95: the unescaped byte that fills the buffer to `target` is PAY_LAST; a FEED that brings just this byte, escaped
or not, appends the one event of `handle(f)` for the frame of all buffered bytes and the byte, and leaves SEEKING_START
and an empty buffer whatever that event is. -/
def Obligations.LastByteEndsTheFrameAttempt : Prop :=
  ∀ (b : Byte) (c : List Byte) (s : State) (T : Nat), s.settled → s.st = .bufferingPayload → s.target = some T →
    Memory.len s.buf + 1 = T → unescape c = ([b], false) →
    decode (.unesc s.st (Memory.len s.buf) s.plen b) = .payLast b ∧
    exec (.feed c) s = .next { s with
      esc := false, st := .seekingStart, buf := []
      trace := s.trace ++ [frameEvent (Memory.bytes s.buf ++ [b])] }

/-- Where the last byte of a frame is under way, one step leads to FRAME_READY and the next has handled the frame (that
these are two steps is the model's, log entries 6 and 12). -/
def Obligations.FrameReadyLastsOneStep : Prop :=
  ∀ (b : Byte) (s : State) (T : Nat),
    s.ready = none → s.unesc = some b → s.st = .bufferingPayload → s.target = some T → Memory.len s.buf + 1 = T →
    ∃ t, step s = .next t ∧ t.phase = .frameReady ∧ t.st = .seekingStart ∧ t.buf = [] ∧ t.trace = s.trace ∧
      step t = .next { s with
        unesc := none, st := .seekingStart, buf := []
        trace := s.trace ++ [frameEvent (Memory.bytes s.buf ++ [b])] }

/-- In every state that meets R30, the row an unescaped byte decodes to, and the handling of a frame it completes, do
what R96's function does (the spec's own derivation from the five rows). -/
def Obligations.UnescRowsAreRx : Prop :=
  ∀ (b : Byte) (s : State), s.rxInv → s.ready = none →
    ∃ t, exec (decode (.unesc s.st (Memory.len s.buf) s.plen b)) s = .next t ∧ settleFrame t = rxR96 b s

/-- The transition table R102, for every unescaped byte in every state that meets R30, for RESET, and for the rows of
the other stages, which make no transition (the spec's own derivation from R96). -/
def Obligations.TransitionTableHolds : Prop :=
  ∀ (b : Byte) (s : State), s.rxInv →
    (∃ t, exec (decode (.unesc s.st (Memory.len s.buf) s.plen b)) s = .next t ∧
      (s.st = .seekingStart → b ≠ 0x7E → t.st = .seekingStart ∧ Memory.len t.buf = 0) ∧
      (s.st = .seekingStart → b = 0x7E → t.st = .haveStart ∧ Memory.len t.buf = 1) ∧
      (s.st = .haveStart → Memory.len s.buf = 1 → t.st = .haveStart ∧ Memory.len t.buf = 2) ∧
      (s.st = .haveStart → Memory.len s.buf = 2 → t.st = .bufferingPayload ∧ Memory.len t.buf = 3) ∧
      (∀ T, s.st = .bufferingPayload → s.target = some T → Memory.len s.buf + 1 < T →
        t.st = .bufferingPayload ∧ Memory.len t.buf = Memory.len s.buf + 1) ∧
      (∀ T, s.st = .bufferingPayload → s.target = some T → Memory.len s.buf + 1 = T →
        t.st = .seekingStart ∧ Memory.len t.buf = 0)) ∧
    (∃ t, exec .reset s = .next t ∧ t.st = .seekingStart ∧ Memory.len t.buf = 0) ∧
    ∀ i, mayWriteBuffer i = false →
      ∃ t, exec i s = .next t ∧ t.st = s.st ∧ Memory.len t.buf = Memory.len s.buf

/-- R98: once the length is known, bytes short of the target are only stored, 0x7E among them or not: no event, no
change of state. -/
def Obligations.BytesInsideAFrameAreOnlyStored : Prop :=
  ∀ (c u : List Byte) (s : State) (T : Nat), s.rxInv → s.settled → s.st = .bufferingPayload →
    s.target = some T → unescape c = (u, false) → Memory.len s.buf + u.length < T →
    ∃ t, exec (.feed c) s = .next t ∧ t = { s with esc := false, buf := t.buf } ∧
      Memory.bytes t.buf = Memory.bytes s.buf ++ u

/-- R65: the payload length is the big-endian value of its two bytes, and the target four more, never wrapped. -/
def Obligations.LengthIsBigEndianAndTargetExact : Prop :=
  (∀ (f : List Byte) (hi lo : Byte), f[1]? = some hi → f[2]? = some lo →
    ∃ p, framePlen f = some p ∧ p.toNat = 256 * hi.toNat + lo.toNat) ∧
  ∀ p : PayloadLen, targetLen p = p.toNat + 4 ∧ 4 ≤ targetLen p ∧ targetLen p ≤ 65539

/-! Memory -/

/-- R45: LEN_BYTE and PAY_BYTE store their byte at `len(buf)`; every other address reads as before, and the canonical
form stays. -/
def Obligations.AppendStoresAtTheFillCount : Prop :=
  ∀ (b : Byte) (s : State) (i : Instr), i = .lenByte b ∨ i = .payByte b → Memory.wf s.buf = true →
    ∃ t, exec i s = .next t ∧ Memory.wf t.buf = true ∧ Memory.len t.buf = Memory.len s.buf + 1 ∧
      ∀ a, Memory.read t.buf a = if a = Memory.len s.buf then some b else Memory.read s.buf a

/-- The rows of the filter, the validator and the dispatcher, and SEEK_SKIP, leave the FrameBuffer and the state
register as they are: every address reads as before (R20, R45, R46). -/
def Obligations.OtherRowsLeaveTheBuffer : Prop :=
  ∀ (i : Instr) (s : State), mayWriteBuffer i = false →
    ∃ t, exec i s = .next t ∧ t.st = s.st ∧ ∀ a, Memory.read t.buf a = Memory.read s.buf a

/-! The Validator and the Dispatcher -/

/-- R111: the predicate sums the bytes at offsets 3 to the last as unsigned integers and looks at the low byte. -/
def Obligations.ChecksumSumsFromOffsetThree : Prop :=
  ∀ f : List Byte, csumOk f = true ↔ (∑ i ∈ Finset.Ico 3 f.length, (f.getD i 0).toNat) &&& 0xFF = 0xFF

/-- R112: a frame that fails the checksum is CSUM_BAD whatever its type; it is reported, dropped, and nothing else
changes. -/
def Obligations.CsumBadReportsAndDrops : Prop :=
  ∀ (f : List Byte) (s : State), (csumOk f = false → decode (.frame f) = .csumBad f) ∧
    exec (.csumBad f) s = .next { s with trace := s.trace ++ [.report .checksumMismatch] }

/-- R121, R122: a checksum-valid type 0x92 frame of 22 bytes or more emits the big-endian value of its bytes 20 and
21; a shorter one is reported MalformedFrame (the bound 22 is decision D7). Nothing else changes. That the value is a sensor reading is not said:
it is one only in the single-sample layout (R123). -/
def Obligations.IoSampleIsReadAtTwentyOrMalformed : Prop :=
  ∀ (f : List Byte) (s : State), csumOk f = true → memRead8 f 3 = some 0x92 →
    decode (.frame f) = .ftZbIoSampleRx f ∧
    (22 ≤ f.length → ∃ (hi lo : Byte) (v : Word16), f[20]? = some hi ∧ f[21]? = some lo ∧
      v.toNat = 256 * hi.toNat + lo.toNat ∧
      exec (.ftZbIoSampleRx f) s = .next { s with trace := s.trace ++ [.ioSample v] }) ∧
    (f.length < 22 →
      exec (.ftZbIoSampleRx f) s = .next { s with trace := s.trace ++ [.report .malformedFrame] })

/-- R127 to R134: the first eight named opaque types pass the whole frame on. -/
def Obligations.OpaqueTypesToModemStatusPassWhole : Prop :=
  passesWhole 0x08 .ftAtCommand ∧ passesWhole 0x09 .ftAtCommandQueue ∧ passesWhole 0x10 .ftZbTxRequest ∧
  passesWhole 0x11 .ftExplicitAddrCmd ∧ passesWhole 0x17 .ftRemoteCmdRequest ∧
  passesWhole 0x21 .ftCreateSourceRoute ∧ passesWhole 0x88 .ftAtCommandResponse ∧
  passesWhole 0x8A .ftModemStatus

/-- R135 to R142: the other eight named opaque types pass the whole frame on. -/
def Obligations.OpaqueTypesFromTxStatusPassWhole : Prop :=
  passesWhole 0x8B .ftZbTxStatus ∧ passesWhole 0x90 .ftZbRxPacket ∧ passesWhole 0x91 .ftZbExplicitRx ∧
  passesWhole 0x94 .ftSensorRead ∧ passesWhole 0x95 .ftNodeId ∧ passesWhole 0x97 .ftRemoteCmdResponse ∧
  passesWhole 0xA0 .ftOtaFwUpdateStatus ∧ passesWhole 0xA1 .ftRouteRecord

/-- R124: a checksum-valid frame whose type is none of the seventeen is passed on whole, and is no error (that
whole means all bytes of the CompleteFrame is decision D6). -/
def Obligations.UnnamedTypesPassWhole : Prop :=
  ∀ t : Byte, t ∉ ([0x08, 0x09, 0x10, 0x11, 0x17, 0x21, 0x88, 0x8A, 0x8B, 0x90, 0x91, 0x92, 0x94, 0x95, 0x97,
    0xA0, 0xA1] : List Byte) → passesWhole t .ftUnknown

/-- R158: every frame at all gives exactly one event, the one the order checksum, type, length gives, and
the row it decodes to changes nothing else. -/
def Obligations.EveryFrameGivesItsOneEvent : Prop :=
  ∀ (f : List Byte) (s : State),
    exec (decode (.frame f)) s = .next { s with trace := s.trace ++ [frameEvent f] }

/-- For every payload exactly the transmitter's checksum byte validates (R115, the spec's own derivation). -/
def Obligations.OnlyTheTransmittedChecksumValidates : Prop :=
  ∀ (h p : List Byte) (c : Byte), h.length = 3 → (csumOk (h ++ p ++ [c]) = true ↔ c = txChecksum p)

/-- Changing exactly one byte at offset 3 or later of a valid frame makes it CSUM_BAD (R116, the spec's own
derivation). -/
def Obligations.OneChangedByteIsCaught : Prop :=
  ∀ (f : List Byte) (i : Nat) (old new : Byte), csumOk f = true → 3 ≤ i → f[i]? = some old → new ≠ old →
    decode (.frame (f.set i new)) = .csumBad (f.set i new)

/-- The frame of a zero-length payload is valid for the byte 0xFF alone and is then passed on as of no named type;
any other byte gives ChecksumMismatch; so a valid type 0x92 frame has a payload (R126: that there is no special case
is decision D16). -/
def Obligations.ZeroLengthPayload : Prop :=
  (∀ (c : Byte) (s : State), exec (decode (.frame [0x7E, 0x00, 0x00, c])) s = .next { s with
    trace := s.trace ++ [if c = 0xFF then .unknown [0x7E, 0x00, 0x00, 0xFF] else .report .checksumMismatch] }) ∧
  ∀ f : List Byte, isCompleteFrame f = true → csumOk f = true → memRead8 f 3 = some 0x92 →
    ∃ p, framePlen f = some p ∧ 1 ≤ p.toNat

/-! FEED and RESET -/

/-- R151: FEED is its second form: unescape the chunk, apply the reassembler to each byte in order, then raise
TruncatedEscape if the chunk was truncated. It always completes, in a state that meets R30 again. -/
def Obligations.FeedIsUnescapeThenRx : Prop :=
  ∀ (c : List Byte) (s : State), s.settled →
    exec (.feed c) s = .next (feedByFunctions c s) ∧ (s.rxInv → (feedByFunctions c s).rxInv)

/-- A chunk that comes in transfers on IN, byte by byte, ends where FEED of that chunk ends (R150, whose interfaces are
decision D2; the steps on the way are the model's, log entries 3 and 6). -/
def Obligations.TransfersOnInAreFeed : Prop :=
  ∀ (c : List Byte) (rest : List Input) (s : State), c ≠ [] → s.settled → s.midChunk = false →
    s.input = transfers c ++ rest →
    ∃ (n : Nat) (t : State), exec (.feed c) s = .next t ∧
      steps n s = .next { t with input := rest }

/-- The empty chunk changes nothing and appends nothing (R155, decision D15). -/
def Obligations.EmptyChunkDoesNothing : Prop :=
  ∀ s : State, s.esc = false → exec (.feed []) s = .next s

/-- R152: RESET empties the buffer, returns to SEEKING_START, clears the escape, appends and withdraws no event
(decision D13), and is idempotent. -/
def Obligations.ResetDiscardsTheFrame : Prop :=
  ∀ s : State, ∃ t, exec .reset s = .next t ∧
    t = { s with st := .seekingStart, buf := [], esc := false } ∧ exec .reset t = .next t

/-- R152: from any state between two operations, RESET and then whole frames gives exactly those frames' events. -/
def Obligations.ResetLeavesNoResidue : Prop :=
  ∀ (fs : List (List Byte)) (s : State), s.settled → (∀ f ∈ fs, isCompleteFrame f = true) →
    ∃ t, exec .reset s = .next t ∧
      exec (.feed (fs.flatMap wireForm)) t = .next { t with trace := s.trace ++ fs.map frameEvent }

/-- R181: the initial state. -/
def Obligations.ResetStateIsTheInitialState : Prop :=
  State.reset.st = .seekingStart ∧ State.reset.buf = [] ∧ State.reset.esc = false

/-- R156, R159 (the spec's own derivations): what a FEED does to the state and what it appends depend on the state register, the buffer and the
chunk alone, and it writes nothing but these and the trace. -/
def Obligations.OnlyStateAndBufferCarryOver : Prop :=
  ∀ (c : List Byte) (s₁ s₂ : State), s₁.settled → s₂.settled → s₁.st = s₂.st → s₁.buf = s₂.buf →
    ∃ (st : RxState) (buf : List Host.Cell) (es : List Event),
      exec (.feed c) s₁ = .next { s₁ with st := st, buf := buf, esc := false, trace := s₁.trace ++ es } ∧
      exec (.feed c) s₂ = .next { s₂ with st := st, buf := buf, esc := false, trace := s₂.trace ++ es }

/-- R156, R101 item 1 (the spec's own derivations): a stream cut into chunks none of which is truncated ends as its FEED in one chunk does, with the
same events. -/
def Obligations.SplitDeliveryIsOneFeed : Prop :=
  ∀ (cs : List (List Byte)) (s : State), s.resting → (∀ c ∈ cs, (unescape c).2 = false) →
    s.input = cs.map (fun c => Input.op (.feed c)) →
    ∃ t : State, exec (.feed cs.flatten) s = .next t ∧
      steps cs.length s = .next { t with input := [] }

/-- R101 item 2 with R95 and R87 (the spec's own derivations): whole frames, sent one after another by an escaping transmitter, in one chunk, give exactly their
events in order and leave the block as it was. -/
def Obligations.FramesInOneChunkGiveTheirEventsInOrder : Prop :=
  ∀ (fs : List (List Byte)) (s : State), s.settled → s.st = .seekingStart → s.buf = [] →
    (∀ f ∈ fs, isCompleteFrame f = true) →
    exec (.feed (fs.flatMap wireForm)) s = .next { s with esc := false, trace := s.trace ++ fs.map frameEvent }

/-- R154: what a FEED of any chunk returns, in any state, is the outcomes among the events it appends, in order; for
whole frames, sent one after another to a block that seeks, these are the frames' own outcomes. -/
def Obligations.FeedReturnsTheOutcomes : Prop :=
  (∀ (c : List Byte) (s : State), ∃ t es, exec (.feed c) s = .next t ∧ t.trace = s.trace ++ es ∧
    t.outcomesSince s.trace.length = es.filter Event.isOutcome) ∧
  ∀ (fs : List (List Byte)) (s : State), s.settled → s.st = .seekingStart → s.buf = [] →
    (∀ f ∈ fs, isCompleteFrame f = true) →
    ∃ t, exec (.feed (fs.flatMap wireForm)) s = .next t ∧
      t.outcomesSince s.trace.length = (fs.map frameEvent).filter Event.isOutcome

/-- R101 items 3 and 4 (the spec's own derivations from R91): in SEEKING_START a chunk whose unescaped bytes hold no 0x7E is skipped: no outcome, and no
report but that of its own dangling escape. -/
def Obligations.NoiseIsSkipped : Prop :=
  ∀ (g : List Byte) (s : State), s.settled → s.st = .seekingStart → (0x7E : Byte) ∉ (unescape g).1 →
    exec (.feed g) s = .next { s with
      esc := false
      trace := s.trace ++ (if (unescape g).2 then [.report .truncatedEscape] else []) }

/-! The whole machine -/

/-- The reset state meets the invariants. -/
def Obligations.ResetMeetsTheInvariants : Prop :=
  State.reset.Inv ∧ State.reset.resting ∧ State.reset.traceSound

/-- R30 (the spec's own derivation) and what goes with it in this model's states (Safety.lean): every step keeps
it. -/
def Obligations.EveryStepKeepsTheInvariant : Prop :=
  ∀ s t : State, s.Inv → step s = .next t → t.Inv

/-- No step passes on a frame that is not a checksum-valid CompleteFrame of another type than 0x92. -/
def Obligations.EveryStepKeepsTheTraceSound : Prop :=
  ∀ s t : State, s.Inv → s.traceSound → step s = .next t → t.traceSound

/-- R22 with R30 and R47 (capacity is decision D8): between any two byte steps the buffer holds at most 65538 bytes, so no append can overflow it. -/
def Obligations.BufferNeverOverflows : Prop :=
  ∀ s : State, s.rxInv → Memory.len s.buf ≤ 65538 ∧ Memory.len s.buf + 1 ≤ Config.bufCap

/-- R153, R157: no instruction withdraws, alters or reorders an event: it only appends; and none touches what the host
has presented or the position on IN. -/
def Obligations.TheTraceOnlyGrows : Prop :=
  ∀ (i : Instr) (s : State), ∃ t es, exec i s = .next t ∧ t.trace = s.trace ++ es ∧
    t.input = s.input ∧ t.midChunk = s.midChunk

/-- R33, R175: a step of one instance is that instance's own step, and every other instance stays as it is. -/
def Obligations.InstancesShareNothing : Prop :=
  ∀ (k : Nat) (m : Instances) (s t : State), m[k]? = some s → step s = .next t →
    ∃ m', Instances.stepAt k m = .next m' ∧ m'[k]? = some t ∧ m'.length = m.length ∧
      ∀ j, j ≠ k → m'[j]? = m[j]?

/-- R74: class, code and operand of each kind of event on OUT (the codes are decision D10, OUT is decision D2). -/
def Obligations.EventsCarryTheirCodes : Prop :=
  (∀ v, (Event.ioSample v).onOut = ⟨.outcome, 0, some v, none⟩) ∧
  (∀ f, (Event.unknown f).onOut = ⟨.outcome, 1, none, some f⟩ ∧ (Event.unknown f).cause = some 4) ∧
  (Event.report .truncatedEscape).onOut = ⟨.report, 1, none, none⟩ ∧
  (Event.report .checksumMismatch).onOut = ⟨.report, 2, none, none⟩ ∧
  (Event.report .malformedFrame).onOut = ⟨.report, 3, none, none⟩
end

