-- ==== Sys2Proof/Laws/State.lean ====
section
/-! SUPPORT. What each setter does to each field: one lemma per field per setter. -/

namespace Sys2Proof.Machine

variable (s : State)

@[simp] theorem emit_st (e : Event) : (emit e s).st = s.st := rfl
@[simp] theorem emit_buf (e : Event) : (emit e s).buf = s.buf := rfl
@[simp] theorem emit_esc (e : Event) : (emit e s).esc = s.esc := rfl
@[simp] theorem emit_unesc (e : Event) : (emit e s).unesc = s.unesc := rfl
@[simp] theorem emit_ready (e : Event) : (emit e s).ready = s.ready := rfl
@[simp] theorem emit_midChunk (e : Event) : (emit e s).midChunk = s.midChunk := rfl
@[simp] theorem emit_input (e : Event) : (emit e s).input = s.input := rfl
@[simp] theorem emit_trace (e : Event) : (emit e s).trace = s.trace ++ [e] := rfl

@[simp] theorem raise_st (r : Report) : (raise r s).st = s.st := rfl
@[simp] theorem raise_buf (r : Report) : (raise r s).buf = s.buf := rfl
@[simp] theorem raise_esc (r : Report) : (raise r s).esc = s.esc := rfl
@[simp] theorem raise_unesc (r : Report) : (raise r s).unesc = s.unesc := rfl
@[simp] theorem raise_ready (r : Report) : (raise r s).ready = s.ready := rfl
@[simp] theorem raise_midChunk (r : Report) : (raise r s).midChunk = s.midChunk := rfl
@[simp] theorem raise_input (r : Report) : (raise r s).input = s.input := rfl
@[simp] theorem raise_trace (r : Report) : (raise r s).trace = s.trace ++ [.report r] := rfl

@[simp] theorem setEsc_st (v : Bool) : (setEsc v s).st = s.st := rfl
@[simp] theorem setEsc_buf (v : Bool) : (setEsc v s).buf = s.buf := rfl
@[simp] theorem setEsc_esc (v : Bool) : (setEsc v s).esc = v := rfl
@[simp] theorem setEsc_unesc (v : Bool) : (setEsc v s).unesc = s.unesc := rfl
@[simp] theorem setEsc_ready (v : Bool) : (setEsc v s).ready = s.ready := rfl
@[simp] theorem setEsc_midChunk (v : Bool) : (setEsc v s).midChunk = s.midChunk := rfl
@[simp] theorem setEsc_input (v : Bool) : (setEsc v s).input = s.input := rfl
@[simp] theorem setEsc_trace (v : Bool) : (setEsc v s).trace = s.trace := rfl

@[simp] theorem handByte_st (b : Byte) : (handByte b s).st = s.st := rfl
@[simp] theorem handByte_buf (b : Byte) : (handByte b s).buf = s.buf := rfl
@[simp] theorem handByte_esc (b : Byte) : (handByte b s).esc = s.esc := rfl
@[simp] theorem handByte_unesc (b : Byte) : (handByte b s).unesc = some b := rfl
@[simp] theorem handByte_ready (b : Byte) : (handByte b s).ready = s.ready := rfl
@[simp] theorem handByte_midChunk (b : Byte) : (handByte b s).midChunk = s.midChunk := rfl
@[simp] theorem handByte_input (b : Byte) : (handByte b s).input = s.input := rfl
@[simp] theorem handByte_trace (b : Byte) : (handByte b s).trace = s.trace := rfl

@[simp] theorem handFrame_st (f : List Byte) : (handFrame f s).st = s.st := rfl
@[simp] theorem handFrame_buf (f : List Byte) : (handFrame f s).buf = s.buf := rfl
@[simp] theorem handFrame_esc (f : List Byte) : (handFrame f s).esc = s.esc := rfl
@[simp] theorem handFrame_unesc (f : List Byte) : (handFrame f s).unesc = s.unesc := rfl
@[simp] theorem handFrame_ready (f : List Byte) : (handFrame f s).ready = some f := rfl
@[simp] theorem handFrame_midChunk (f : List Byte) : (handFrame f s).midChunk = s.midChunk := rfl
@[simp] theorem handFrame_input (f : List Byte) : (handFrame f s).input = s.input := rfl
@[simp] theorem handFrame_trace (f : List Byte) : (handFrame f s).trace = s.trace := rfl

@[simp] theorem setRx_st (st : RxState) (buf : List Host.Cell) : (setRx st buf s).st = st := rfl
@[simp] theorem setRx_buf (st : RxState) (buf : List Host.Cell) : (setRx st buf s).buf = buf := rfl
@[simp] theorem setRx_esc (st : RxState) (buf : List Host.Cell) : (setRx st buf s).esc = s.esc := rfl
@[simp] theorem setRx_unesc (st : RxState) (buf : List Host.Cell) : (setRx st buf s).unesc = s.unesc := rfl
@[simp] theorem setRx_ready (st : RxState) (buf : List Host.Cell) : (setRx st buf s).ready = s.ready := rfl
@[simp] theorem setRx_midChunk (st : RxState) (buf : List Host.Cell) : (setRx st buf s).midChunk = s.midChunk := rfl
@[simp] theorem setRx_input (st : RxState) (buf : List Host.Cell) : (setRx st buf s).input = s.input := rfl
@[simp] theorem setRx_trace (st : RxState) (buf : List Host.Cell) : (setRx st buf s).trace = s.trace := rfl

@[simp] theorem takeByte_st : (takeByte s).st = s.st := rfl
@[simp] theorem takeByte_buf : (takeByte s).buf = s.buf := rfl
@[simp] theorem takeByte_esc : (takeByte s).esc = s.esc := rfl
@[simp] theorem takeByte_unesc : (takeByte s).unesc = none := rfl
@[simp] theorem takeByte_ready : (takeByte s).ready = s.ready := rfl
@[simp] theorem takeByte_midChunk : (takeByte s).midChunk = s.midChunk := rfl
@[simp] theorem takeByte_input : (takeByte s).input = s.input := rfl
@[simp] theorem takeByte_trace : (takeByte s).trace = s.trace := rfl

@[simp] theorem takeFrame_st : (takeFrame s).st = s.st := rfl
@[simp] theorem takeFrame_buf : (takeFrame s).buf = s.buf := rfl
@[simp] theorem takeFrame_esc : (takeFrame s).esc = s.esc := rfl
@[simp] theorem takeFrame_unesc : (takeFrame s).unesc = s.unesc := rfl
@[simp] theorem takeFrame_ready : (takeFrame s).ready = none := rfl
@[simp] theorem takeFrame_midChunk : (takeFrame s).midChunk = s.midChunk := rfl
@[simp] theorem takeFrame_input : (takeFrame s).input = s.input := rfl
@[simp] theorem takeFrame_trace : (takeFrame s).trace = s.trace := rfl

/-! `plen` and `target` depend on the buffer alone. -/

theorem plen_congr {s t : State} (h : s.buf = t.buf) : s.plen = t.plen := by
  simp only [State.plen, h]

theorem target_congr {s t : State} (h : s.buf = t.buf) : s.target = t.target := by
  simp only [State.target, plen_congr h]

/-! Reset. -/

@[simp] theorem reset_st : State.reset.st = .seekingStart := rfl
@[simp] theorem reset_buf : State.reset.buf = [] := rfl
@[simp] theorem reset_esc : State.reset.esc = false := rfl
@[simp] theorem reset_unesc : State.reset.unesc = none := rfl
@[simp] theorem reset_ready : State.reset.ready = none := rfl
@[simp] theorem reset_midChunk : State.reset.midChunk = false := rfl
@[simp] theorem reset_input : State.reset.input = [] := rfl
@[simp] theorem reset_trace : State.reset.trace = [] := rfl

end Sys2Proof.Machine
end

