-- ==== Sys2Proof/Laws/Memory.lean ====
section
/-! SUPPORT. The laws of the FrameBuffer: the canonical form is kept, a read after the append, the bytes as a list,
what the reads of R23 give in terms of that list, and the number a big-endian pair stands for. -/

namespace Sys2Proof.Machine

variable (m : List Host.Cell) (b : Byte)

@[simp] theorem Memory.len_nil : Memory.len [] = 0 := rfl

@[simp] theorem Memory.bytes_nil : Memory.bytes [] = [] := rfl

@[simp] theorem Memory.wf_nil : Memory.wf [] = true := rfl

@[simp] theorem Memory.read_nil (a : Nat) : Memory.read [] a = none := rfl

@[simp] theorem Memory.len_append : Memory.len (Memory.append m b) = Memory.len m + 1 := by
  simp [Memory.len, Memory.append]

@[simp] theorem Memory.bytes_append : Memory.bytes (Memory.append m b) = Memory.bytes m ++ [b] := by
  simp [Memory.bytes, Memory.append]

@[simp] theorem Memory.bytes_length : (Memory.bytes m).length = Memory.len m := by
  simp [Memory.bytes, Memory.len]

theorem Memory.wf_iff : Memory.wf m = true ↔ m.map Prod.fst = List.range m.length := by
  simp [Memory.wf]

/-- The append keeps the canonical form (R45). -/
theorem Memory.wf_append (h : Memory.wf m = true) : Memory.wf (Memory.append m b) = true := by
  rw [Memory.wf_iff] at h ⊢
  simp [Memory.append, Memory.len, h, List.range_succ]

theorem Memory.wf_ofBytes (bs : List Byte) : Memory.wf (Memory.ofBytes bs) = true := by
  suffices ∀ m, Memory.wf m = true → Memory.wf (bs.foldl Memory.append m) = true from this [] rfl
  induction bs with
  | nil => exact fun _ h => h
  | cons b bs ih => exact fun m h => ih _ (Memory.wf_append m b h)

theorem Memory.bytes_foldl_append (bs : List Byte) :
    Memory.bytes (bs.foldl Memory.append m) = Memory.bytes m ++ bs := by
  induction bs generalizing m with
  | nil => simp
  | cons b bs ih => simp [ih]

theorem Memory.len_foldl_append (bs : List Byte) :
    Memory.len (bs.foldl Memory.append m) = Memory.len m + bs.length := by
  induction bs generalizing m with
  | nil => simp
  | cons b bs ih => simp [ih]; omega

/-- In canonical form a read is a look at the list of bytes: nothing is hidden and nothing out of place (R40, R44). -/
theorem Memory.read_eq_bytes (h : Memory.wf m = true) (a : Nat) :
    Memory.read m a = (Memory.bytes m)[a]? := by
  rw [Memory.wf_iff] at h
  induction m using List.reverseRecOn with
  | nil => simp [Memory.read, Memory.bytes]
  | append_singleton m c ih =>
    obtain ⟨k, v⟩ := c
    simp only [List.map_append, List.map_cons, List.map_nil, List.length_append, List.length_cons,
      List.length_nil, Nat.zero_add, List.range_succ] at h
    obtain ⟨hm, hk⟩ := List.append_inj' h rfl
    obtain rfl : k = m.length := by simpa using hk
    have ih := ih hm
    simp only [Memory.read, Memory.bytes] at ih ⊢
    rw [List.lookup_append, ih, List.map_append]
    rcases Nat.lt_trichotomy a m.length with h | h | h
    · rw [List.getElem?_append_left (by simpa using h)]
      simp [h]
    · simp [h, List.lookup]
    · have : (a == m.length) = false := by simp; omega
      rw [List.getElem?_eq_none (by simp; omega), List.getElem?_eq_none (by simp; omega)]
      simp [List.lookup, this]

/-- A read after the append: the stored byte at `len`, every other address as before (R45). -/
theorem Memory.read_append (h : Memory.wf m = true) (a : Nat) :
    Memory.read (Memory.append m b) a = if a = Memory.len m then some b else Memory.read m a := by
  rw [Memory.read_eq_bytes _ (Memory.wf_append m b h), Memory.read_eq_bytes _ h, Memory.bytes_append]
  split
  · simp_all
  · rcases Nat.lt_or_ge a (Memory.len m) with h' | h'
    · rw [List.getElem?_append_left (by simpa using h')]
    · rw [List.getElem?_eq_none (by simp; omega), List.getElem?_eq_none (by simp; omega)]

/-- Nothing lies at or above `len` (R46). -/
theorem Memory.read_none_of_len_le (h : Memory.wf m = true) {a : Nat} (ha : Memory.len m ≤ a) :
    Memory.read m a = none := by
  rw [Memory.read_eq_bytes m h, List.getElem?_eq_none (by simpa using ha)]

theorem Memory.eq_nil_of_len (h : Memory.len m = 0) : m = [] :=
  List.eq_nil_of_length_eq_zero h

/-- The number a big-endian pair of 16 bits stands for (R42). -/
theorem bePair_toNat (hi lo : Byte) : (bePair 16 hi lo).toNat = 256 * hi.toNat + lo.toNat := by
  have h1 := hi.isLt
  have h2 := lo.isLt
  simp only [bePair, BitVec.toNat_or, BitVec.toNat_shiftLeft, BitVec.truncate_eq_setWidth, BitVec.toNat_setWidth]
  rw [Nat.mod_eq_of_lt (by omega : hi.toNat < 2 ^ 16), Nat.mod_eq_of_lt (by omega : lo.toNat < 2 ^ 16),
    Nat.shiftLeft_eq, Nat.mod_eq_of_lt (by omega), Nat.mul_comm hi.toNat, ← Nat.two_pow_add_eq_or_of_lt (by omega)]

/-- A payload length is at most 65535 (R7). -/
theorem payloadLen_lt (p : PayloadLen) : p.toNat < 65536 := p.isLt

/-- The payload length of a buffer in canonical form is that of its bytes (R23, R65). -/
theorem State.plen_eq_framePlen (s : State) (h : Memory.wf s.buf = true) :
    s.plen = framePlen (Memory.bytes s.buf) := by
  simp only [State.plen, framePlen, memReadPair, memRead8, Memory.read_eq_bytes _ h]
  split
  · rfl
  · rename_i h3
    rw [List.getElem?_eq_none (l := Memory.bytes s.buf) (i := 2) (by
      simp only [Config.hdrBytes, Memory.bytes_length] at h3 ⊢; omega)]
    simp

/-- Appending beyond the length bytes does not change the payload length (R23). -/
theorem framePlen_append (f g : List Byte) (h : 3 ≤ f.length) : framePlen (f ++ g) = framePlen f := by
  simp only [framePlen, memReadPair, memRead8]
  rw [List.getElem?_append_left (by omega), List.getElem?_append_left (by omega)]

end Sys2Proof.Machine
end

