-- ==== Sys2Proof/Laws/Stages.lean ====
section
/-! SUPPORT. What each stage can do, said once: the filter step, `rx`, `handle`, the byte step, FEED. -/

namespace Sys2Proof.Machine

variable (b : Byte) (f : List Byte) (s : State)

/-! The filter step writes `esc`, `unesc` and the trace, and nothing else (R80). -/

/-- The four cases of a filter step (R81 to R84). -/
theorem filterStep_cases (last : Bool) :
    (s.esc = true ∧ filterStep b last s = { s with esc := false, unesc := some (b ^^^ Config.escXor) }) ∨
    (s.esc = false ∧ b = Config.esc ∧ last = true ∧
      filterStep b last s = { s with esc := false, trace := s.trace ++ [.report .truncatedEscape] }) ∨
    (s.esc = false ∧ b = Config.esc ∧ last = false ∧ filterStep b last s = { s with esc := true }) ∨
    (s.esc = false ∧ b ≠ Config.esc ∧ filterStep b last s = { s with unesc := some b }) := by
  unfold filterStep rawRow
  rcases Bool.eq_false_or_eq_true s.esc with he | he
  · exact .inl ⟨he, by rw [if_pos he]; rfl⟩
  · rw [if_neg (by simp [he])]
    by_cases hb : b = Config.esc
    · cases last
      · exact .inr (.inr (.inl ⟨he, hb, rfl, by rw [if_pos hb]; rfl⟩))
      · exact .inr (.inl ⟨he, hb, rfl, by rw [if_pos hb]; rfl⟩)
    · exact .inr (.inr (.inr ⟨he, hb, by rw [if_neg hb]; rfl⟩))

@[simp] theorem filterStep_st (last : Bool) : (filterStep b last s).st = s.st := by
  unfold filterStep; split <;> rfl

@[simp] theorem filterStep_buf (last : Bool) : (filterStep b last s).buf = s.buf := by
  unfold filterStep; split <;> rfl

@[simp] theorem filterStep_ready (last : Bool) : (filterStep b last s).ready = s.ready := by
  unfold filterStep; split <;> rfl

@[simp] theorem filterStep_midChunk (last : Bool) : (filterStep b last s).midChunk = s.midChunk := by
  unfold filterStep; split <;> rfl

@[simp] theorem filterStep_input (last : Bool) : (filterStep b last s).input = s.input := by
  unfold filterStep; split <;> rfl

/-! `rx` writes `st`, `buf` and `ready`, and nothing else (R90). -/

@[simp] theorem rx_esc : (rx b s).esc = s.esc := by
  unfold rx; split <;> rfl

@[simp] theorem rx_unesc : (rx b s).unesc = s.unesc := by
  unfold rx; split <;> rfl

@[simp] theorem rx_midChunk : (rx b s).midChunk = s.midChunk := by
  unfold rx; split <;> rfl

@[simp] theorem rx_input : (rx b s).input = s.input := by
  unfold rx; split <;> rfl

@[simp] theorem rx_trace : (rx b s).trace = s.trace := by
  unfold rx; split <;> rfl

theorem rx_seeking_start (h : s.st = .seekingStart) :
    rx Config.start s = setRx .haveStart (Memory.append [] Config.start) s := by
  simp [rx, unescRow, h, rxSeekStart]

theorem rx_seeking_skip (h : s.st = .seekingStart) (hb : b ≠ Config.start) : rx b s = s := by
  simp [rx, unescRow, h, hb, rxSeekSkip]

theorem rx_haveStart (h : s.st = .haveStart) : rx b s = rxLenByte b s := by
  simp [rx, unescRow, h]

/-- Within a frame of known target, a byte that does not reach it is appended (R94). -/
theorem rx_payByte {t : Nat} (h : s.st = .bufferingPayload) (ht : s.target = some t)
    (hl : Memory.len s.buf + 1 ≠ t) : rx b s = setRx s.st (Memory.append s.buf b) s := by
  obtain ⟨p, hp, rfl⟩ := Option.map_eq_some_iff.1 ht
  simp [rx, unescRow, h, hp, hl, rxPayByte]

/-- The byte that reaches the target completes the frame (R95). -/
theorem rx_payLast {t : Nat} (h : s.st = .bufferingPayload) (ht : s.target = some t)
    (hl : Memory.len s.buf + 1 = t) :
    rx b s = handFrame (Memory.bytes s.buf ++ [b]) (setRx .seekingStart [] s) := by
  obtain ⟨p, hp, rfl⟩ := Option.map_eq_some_iff.1 ht
  simp [rx, unescRow, h, hp, hl, rxPayLast]

/-! `handle` appends one event and does nothing else (R143, R158). -/

theorem handle_eq_emit : handle f s = emit (frameEvent f) s := by
  unfold handle frameEvent dispatch decodeIoSample
  split
  · split
    · rcases sampleOf f with _ | v <;> rfl
    · rfl
  · rfl

@[simp] theorem settleFrame_of_none (h : s.ready = none) : settleFrame s = s := by
  simp [settleFrame, h]

@[simp] theorem settleFrame_of_some (h : s.ready = some f) :
    settleFrame s = emit (frameEvent f) (takeFrame s) := by
  simp [settleFrame, h, handle_eq_emit]

@[simp] theorem settleFrame_st : (settleFrame s).st = s.st := by
  unfold settleFrame; split <;> simp [handle_eq_emit]

@[simp] theorem settleFrame_buf : (settleFrame s).buf = s.buf := by
  unfold settleFrame; split <;> simp [handle_eq_emit]

@[simp] theorem settleFrame_esc : (settleFrame s).esc = s.esc := by
  unfold settleFrame; split <;> simp [handle_eq_emit]

@[simp] theorem settleFrame_unesc : (settleFrame s).unesc = s.unesc := by
  unfold settleFrame; split <;> simp [handle_eq_emit]

@[simp] theorem settleFrame_ready : (settleFrame s).ready = none := by
  unfold settleFrame; split <;> simp_all [handle_eq_emit]

@[simp] theorem settleFrame_midChunk : (settleFrame s).midChunk = s.midChunk := by
  unfold settleFrame; split <;> simp [handle_eq_emit]

@[simp] theorem settleFrame_input : (settleFrame s).input = s.input := by
  unfold settleFrame; split <;> simp [handle_eq_emit]

/-- What settling a frame appends. -/
theorem settleFrame_trace : (settleFrame s).trace = s.trace ++ (s.ready.map frameEvent).toList := by
  unfold settleFrame; split <;> simp_all [handle_eq_emit]

/-! A settled state: nothing is under way after a byte step, and what is not the block's stays. -/

@[simp] theorem settle_settled : (settle s).settled := by
  unfold settle State.settled
  split <;> simp_all

theorem settle_of_settled (h : s.settled) : settle s = s := by
  simp [settle, settleFrame, h.1, h.2]

theorem settle_of_unesc (h : s.unesc = some b) : settle s = settleFrame (rx b (takeByte s)) := by
  simp [settle, h]

@[simp] theorem settle_esc : (settle s).esc = s.esc := by
  unfold settle; split <;> simp

@[simp] theorem settle_midChunk : (settle s).midChunk = s.midChunk := by
  unfold settle; split <;> simp

@[simp] theorem settle_input : (settle s).input = s.input := by
  unfold settle; split <;> simp

theorem settle_trace_grows : ∃ es, (settle s).trace = s.trace ++ es := by
  unfold settle
  split <;> rw [settleFrame_trace]
  · rw [rx_trace]; exact ⟨_, rfl⟩
  · exact ⟨_, rfl⟩

theorem byteStep_settled (last : Bool) : (byteStep b last s).settled :=
  settle_settled _

@[simp] theorem byteStep_midChunk (last : Bool) : (byteStep b last s).midChunk = s.midChunk := by
  simp [byteStep]

@[simp] theorem byteStep_input (last : Bool) : (byteStep b last s).input = s.input := by
  simp [byteStep]

theorem byteStep_trace_grows (last : Bool) : ∃ es, (byteStep b last s).trace = s.trace ++ es := by
  obtain ⟨es, h⟩ := settle_trace_grows (filterStep b last s)
  obtain ⟨-, h'⟩ | ⟨-, -, -, h'⟩ | ⟨-, -, -, h'⟩ | ⟨-, -, h'⟩ := filterStep_cases b s last <;>
    rw [byteStep, h] <;> simp only [h', List.append_assoc] <;> exact ⟨_, rfl⟩

/-- The last byte of a chunk leaves no escape pending (R24, R82 to R84). -/
theorem byteStep_last_esc : (byteStep b true s).esc = false := by
  rw [byteStep, settle_esc]
  obtain ⟨-, h⟩ | ⟨-, -, -, h⟩ | ⟨-, -, h, -⟩ | ⟨he, -, h⟩ := filterStep_cases b s true
  · rw [h]
  · rw [h]
  · exact absurd h (by decide)
  · rw [h]; exact he

@[simp] theorem feedBytes_midChunk (c : List Byte) : (feedBytes c s).midChunk = s.midChunk := by
  induction c generalizing s with
  | nil => rfl
  | cons b c ih => simp [feedBytes, ih]

@[simp] theorem feedBytes_input (c : List Byte) : (feedBytes c s).input = s.input := by
  induction c generalizing s with
  | nil => rfl
  | cons b c ih => simp [feedBytes, ih]

theorem feedBytes_settled (c : List Byte) (h : s.settled) : (feedBytes c s).settled := by
  induction c generalizing s with
  | nil => exact h
  | cons b c ih => exact ih _ (byteStep_settled b s _)

theorem feedBytes_trace_grows (c : List Byte) : ∃ es, (feedBytes c s).trace = s.trace ++ es := by
  induction c generalizing s with
  | nil => exact ⟨[], by simp [feedBytes]⟩
  | cons b c ih =>
    obtain ⟨es, h⟩ := byteStep_trace_grows b s c.isEmpty
    obtain ⟨es', h'⟩ := ih (byteStep b c.isEmpty s)
    exact ⟨es ++ es', by rw [feedBytes, h', h, List.append_assoc]⟩

/-- Where the trace has grown by `es`, the outcomes since are those of `es` (R154). -/
theorem outcomesSince_of_grown {old es : List Event} (h : s.trace = old ++ es) :
    s.outcomesSince old.length = es.filter Event.isOutcome := by
  simp [State.outcomesSince, h]

@[simp] theorem feedChunk_esc (c : List Byte) : (feedChunk c s).esc = false := rfl

@[simp] theorem feedChunk_midChunk (c : List Byte) : (feedChunk c s).midChunk = s.midChunk := by
  simp [feedChunk]

@[simp] theorem feedChunk_input (c : List Byte) : (feedChunk c s).input = s.input := by
  simp [feedChunk]

/-- FEED leaves nothing under way (R31). -/
theorem feedChunk_settled (c : List Byte) (h : s.settled) : (feedChunk c s).settled :=
  feedBytes_settled (setEsc false s) c h

end Sys2Proof.Machine
end

