-- ==== Sys2Proof/Laws/Invariant.lean ====
section
/-! SUPPORT. Lemmas toward the claims: the decoded row is the stage's step, the reassembler keeps R30 and completes
only CompleteFrames, sequences of bytes, the function form of the filter. -/

namespace Sys2Proof.Machine

/-! The row a raw or unescaped byte decodes to does what the stage does inside FEED. -/

/-- RAW: exec of the decoded row is the filter step (R61, R151). -/
theorem exec_decode_raw (b : Byte) (last : Bool) (s : State) :
    exec (decode (.raw s.esc last b)) s = .next (filterStep b last s) := by
  simp only [decode, decodeRaw, filterStep]
  cases rawRow s.esc last b <;> rfl

/-- UNESC: exec of the decoded row is `rx` (R68, R96). -/
theorem exec_decode_unesc (b : Byte) (s : State) :
    exec (decode (.unesc s.st (Memory.len s.buf) s.plen b)) s = .next (rx b s) := by
  simp only [decode, decodeUnesc, rx]
  cases unescRow s.st (Memory.len s.buf) s.plen b <;> rfl

/-- A type byte that names a type is the code of that type (R69). -/
theorem FrameType.code_of_ofByte {t : Byte} {k : FrameType} (h : FrameType.ofByte t = some k) : k.code = t := by
  simpa using List.find?_some h

/-- The code of a type names it (R69). -/
theorem FrameType.ofByte_code (k : FrameType) : FrameType.ofByte k.code = some k := by
  cases k <;> decide

/-! R30. -/

/-- In BUFFERING_PAYLOAD the target is known, not yet reached, and at most 65539 (R23, R30). -/
theorem rxInv_target {s : State} (h : s.rxInv) (hst : s.st = .bufferingPayload) :
    ∃ T, s.target = some T ∧ 3 ≤ Memory.len s.buf ∧ Memory.len s.buf < T ∧ T ≤ 65539 := by
  obtain ⟨h3, ha⟩ := h.2.2.2.1.1 hst
  simp only [Option.any_eq_true, decide_eq_true_eq] at ha
  obtain ⟨T, hT, hlt⟩ := ha
  refine ⟨T, hT, h3, hlt, ?_⟩
  obtain ⟨p, -, rfl⟩ := Option.map_eq_some_iff.1 hT
  have := payloadLen_lt p
  simp only [targetLen, Config.overhead]
  omega

/-- R30 is about the state register and the buffer alone. -/
theorem rxInv_congr {s t : State} (hs : s.st = t.st) (hb : s.buf = t.buf) (h : s.rxInv) : t.rxInv := by
  have ht := target_congr hb
  unfold State.rxInv at *
  rw [← hs, ← hb, ← ht]
  exact h

/-- The initial state of the reassembler meets R30. -/
theorem rxInv_initial {s : State} (hs : s.st = .seekingStart) (hb : s.buf = []) : s.rxInv := by
  have : s.target = none := by simp [State.target, State.plen, hb, Config.hdrBytes]
  simp [State.rxInv, hs, hb]

/-- An append beyond the length bytes leaves `target` as it is (R23). -/
theorem target_append {s t : State} (b : Byte) (ht : t.buf = Memory.append s.buf b)
    (hw : Memory.wf s.buf = true) (h3 : 3 ≤ Memory.len s.buf) : t.target = s.target := by
  have hw' : Memory.wf t.buf = true := by rw [ht]; exact Memory.wf_append _ b hw
  rw [State.target, State.target, State.plen_eq_framePlen t hw', State.plen_eq_framePlen s hw, ht,
    Memory.bytes_append, framePlen_append _ _ (by simpa)]

/-- With exactly three bytes in canonical form the target is known and more than three (R93 c). -/
theorem target_of_three {s : State} (hw : Memory.wf s.buf = true) (hl : Memory.len s.buf = 3) :
    s.target.any (fun t => decide (Memory.len s.buf < t)) = true := by
  have hb : (Memory.bytes s.buf).length = 3 := by simp [hl]
  rw [State.target, State.plen, if_pos (by simp [hl, Config.hdrBytes]), Memory.read_eq_bytes _ hw,
    Memory.read_eq_bytes _ hw]
  simp [hb, hl, targetLen, Config.overhead]

/-- `rx` keeps R30 (R91 to R95). -/
theorem rx_rxInv (b : Byte) {s : State} (h : s.rxInv) : (rx b s).rxInv := by
  cases hst : s.st with
  | seekingStart =>
    by_cases hb : b = Config.start
    · subst hb
      rw [rx_seeking_start _ hst]
      simp [State.rxInv]
      decide
    · rwa [rx_seeking_skip _ _ hst hb]
  | haveStart =>
    have h0 := h.2.2.1.1 hst
    have hr := h.2.2.2.2 (by omega)
    have hw := Memory.wf_append s.buf b h.1
    have h3 := target_of_three (s := rx b s) (by simpa [rx_haveStart _ _ hst, rxLenByte] using hw)
    rw [rx_haveStart _ _ hst] at h3 ⊢
    simp only [rxLenByte, State.rxInv, setRx_st, setRx_buf, Memory.len_append, hw, hst, Config.hdrBytes,
      Memory.read_append _ _ h.1] at h3 ⊢
    rcases h0 with h0 | h0 <;> simp_all
  | bufferingPayload =>
    obtain ⟨T, hT, h3, hlt, -⟩ := rxInv_target h hst
    have hr := h.2.2.2.2 (by omega)
    by_cases hl : Memory.len s.buf + 1 = T
    · rw [rx_payLast b s hst hT hl]
      exact rxInv_initial rfl rfl
    · rw [rx_payByte b s hst hT hl]
      have ht : (setRx s.st (Memory.append s.buf b) s).target = some T := by
        rw [target_append b rfl h.1 h3, hT]
      simp only [State.rxInv, setRx_st, setRx_buf, Memory.len_append, Memory.read_append _ _ h.1,
        Memory.wf_append _ _ h.1, ht]
      refine ⟨trivial, by simp [hst], by simp [hst]; omega, by simp [hst]; omega, fun _ => ?_⟩
      rw [if_neg (by omega)]
      exact hr

/-- A frame `rx` hands on is a CompleteFrame, and the reassembler is back in its initial state (R64, R95). -/
theorem rx_ready_complete (b : Byte) {s : State} (h : s.rxInv) (hr : s.ready = none) {f : List Byte}
    (hf : (rx b s).ready = some f) :
    isCompleteFrame f = true ∧ (rx b s).st = .seekingStart ∧ (rx b s).buf = [] := by
  cases hst : s.st with
  | seekingStart =>
    by_cases hb : b = Config.start
    · subst hb
      simp [rx_seeking_start _ hst, hr] at hf
    · simp [rx_seeking_skip _ _ hst hb, hr] at hf
  | haveStart => simp [rx_haveStart _ _ hst, rxLenByte, hr] at hf
  | bufferingPayload =>
    obtain ⟨T, hT, h3, hlt, -⟩ := rxInv_target h hst
    by_cases hl : Memory.len s.buf + 1 = T
    · rw [rx_payLast b s hst hT hl] at hf ⊢
      obtain rfl := Option.some.inj hf
      refine ⟨?_, rfl, rfl⟩
      obtain ⟨p, hp, rfl⟩ := Option.map_eq_some_iff.1 hT
      have h0 := h.2.2.2.2 (by omega)
      rw [Memory.read_eq_bytes _ h.1] at h0
      rw [State.plen_eq_framePlen _ h.1] at hp
      simp only [isCompleteFrame, memRead8, Bool.and_eq_true, beq_iff_eq]
      rw [framePlen_append _ _ (by simpa), hp, List.getElem?_append_left (by simp; omega), h0]
      simp [hl]
    · simp [rx_payByte b s hst hT hl, hr] at hf

/-! Sequences of unescaped bytes (R97). -/

theorem rxBytes_append (u v : List Byte) (s : State) : rxBytes (u ++ v) s = rxBytes v (rxBytes u s) :=
  List.foldl_append ..

theorem rxByte_settled (b : Byte) {s : State} (h : s.settled) : (rxByte s b).settled := by
  simp [rxByte, State.settled, h.1]

theorem rxByte_rxInv (b : Byte) {s : State} (h : s.rxInv) : (rxByte s b).rxInv :=
  rxInv_congr (s := rx b s) (by simp [rxByte]) (by simp [rxByte]) (rx_rxInv b h)

theorem rxBytes_rxInv (u : List Byte) {s : State} (h : s.rxInv) : (rxBytes u s).rxInv := by
  induction u generalizing s with
  | nil => exact h
  | cons b u ih => exact ih (rxByte_rxInv b h)

/-- The reassembler does not look at the filter's flag (R80). -/
theorem rxByte_setEsc (b : Byte) (v : Bool) (s : State) :
    rxByte (setEsc v s) b = setEsc v (rxByte s b) := by
  have hr : rx b (setEsc v s) = setEsc v (rx b s) := by
    unfold rx
    rw [show (setEsc v s).plen = s.plen from rfl, setEsc_st, setEsc_buf]
    split <;> rfl
  rw [rxByte, hr, rxByte]
  unfold settleFrame
  rw [setEsc_ready]
  split
  · rw [handle_eq_emit, handle_eq_emit]; rfl
  · rfl

theorem rxBytes_setEsc (u : List Byte) (v : Bool) (s : State) :
    rxBytes u (setEsc v s) = setEsc v (rxBytes u s) := by
  induction u generalizing s with
  | nil => rfl
  | cons b u ih =>
    simp only [rxBytes, List.foldl] at *
    rw [rxByte_setEsc, ih]

/-! The filter as a function (R85, R63). -/

theorem unescape_cons_lit {b : Byte} (h : b ≠ Config.esc) (c : List Byte) :
    unescape (b :: c) = (b :: (unescape c).1, (unescape c).2) := by
  cases c <;> simp [unescape, h]

theorem unescape_cons_pair (p : Byte) (c : List Byte) :
    unescape (Config.esc :: p :: c) = ((p ^^^ Config.escXor) :: (unescape c).1, (unescape c).2) := by
  simp [unescape]

/-- XOR with 0x20 is its own inverse (R114). -/
theorem xor_escXor_twice (b : Byte) : b ^^^ Config.escXor ^^^ Config.escXor = b := by
  rw [BitVec.xor_assoc, BitVec.xor_self, BitVec.xor_zero]

end Sys2Proof.Machine
end

