-- ==== Sys2Proof/Laws/PerInstr.lean ====
section
/-! SUPPORT. Family TableMatch: the encoding of a well-formed instruction fits its own row of the opcode table. -/

namespace Sys2Proof.Laws.TableMatch

open Sys2Proof.Machine

/-- The byte of the encoding fits the row's `match` and `mask` (R75); an OP row has neither byte nor pattern. -/
def Statement (i : Instr) : Prop :=
  i.wellFormed = true →
    (i.pattern = none ∧ (encode i).tableByte = none) ∨
    ∃ p b, i.pattern = some p ∧ (encode i).tableByte = some b ∧ p.fits b = true

/-- Every byte fits the pattern of a catch-all row. -/
theorem any_fits (b : Byte) : BitPattern.any.fits b = true := by
  simp [BitPattern.fits, BitPattern.any]

/-- A byte fits the pattern of itself. -/
theorem only_fits (b : Byte) : (BitPattern.only b).fits b = true := by
  have h : b &&& (0xFF : Byte) = b := BitVec.and_allOnes
  simp only [BitPattern.fits, BitPattern.only, h, beq_self_eq_true]

/-- A CompleteFrame has a type byte: its length is at least four (R120). -/
theorem type_byte_of_complete {f : List Byte} (h : isCompleteFrame f = true) : ∃ t, memRead8 f 3 = some t := by
  simp only [isCompleteFrame, Bool.and_eq_true, Option.any_eq_true, beq_iff_eq] at h
  obtain ⟨-, p, -, hl⟩ := h
  have hlen : f.length = p.toNat + 4 := hl
  exact ⟨f[3], by simp [memRead8]⟩

/-- A frame of a named type fits the pattern of that type. -/
theorem named_fits {k : FrameType} {f : List Byte} (h : namedFrame k f = true) :
    ∃ p b, some (BitPattern.only k.code) = some p ∧ memRead8 f Config.typeOff = some b ∧ p.fits b = true := by
  simp only [namedFrame, Bool.and_eq_true, typeIs, beq_iff_eq] at h
  exact ⟨_, _, rfl, h.2, only_fits _⟩

/-- A CompleteFrame fits the pattern of a catch-all row. -/
theorem complete_fits {f : List Byte} (h : isCompleteFrame f = true) :
    ∃ p b, some BitPattern.any = some p ∧ memRead8 f Config.typeOff = some b ∧ p.fits b = true := by
  obtain ⟨t, ht⟩ := type_byte_of_complete h
  exact ⟨_, _, rfl, ht, any_fits _⟩

theorem escd (b : Byte) : Statement (.escd b) :=
  fun _ => .inr ⟨_, b, rfl, rfl, any_fits b⟩

theorem escTrunc : Statement .escTrunc :=
  fun _ => .inr ⟨_, _, rfl, rfl, only_fits _⟩

theorem esc : Statement .esc :=
  fun _ => .inr ⟨_, _, rfl, rfl, only_fits _⟩

theorem lit (b : Byte) : Statement (.lit b) :=
  fun _ => .inr ⟨_, b, rfl, rfl, any_fits b⟩

theorem seekStart : Statement .seekStart :=
  fun _ => .inr ⟨_, _, rfl, rfl, only_fits _⟩

theorem seekSkip (b : Byte) : Statement (.seekSkip b) :=
  fun _ => .inr ⟨_, b, rfl, rfl, any_fits b⟩

theorem lenByte (b : Byte) : Statement (.lenByte b) :=
  fun _ => .inr ⟨_, b, rfl, rfl, any_fits b⟩

theorem payLast (b : Byte) : Statement (.payLast b) :=
  fun _ => .inr ⟨_, b, rfl, rfl, any_fits b⟩

theorem payByte (b : Byte) : Statement (.payByte b) :=
  fun _ => .inr ⟨_, b, rfl, rfl, any_fits b⟩

theorem csumBad (f : List Byte) : Statement (.csumBad f) :=
  fun h => .inr (complete_fits (Bool.and_eq_true_iff.1 h).1)

theorem ftAtCommand (f : List Byte) : Statement (.ftAtCommand f) :=
  fun h => .inr (named_fits h)

theorem ftAtCommandQueue (f : List Byte) : Statement (.ftAtCommandQueue f) :=
  fun h => .inr (named_fits h)

theorem ftZbTxRequest (f : List Byte) : Statement (.ftZbTxRequest f) :=
  fun h => .inr (named_fits h)

theorem ftExplicitAddrCmd (f : List Byte) : Statement (.ftExplicitAddrCmd f) :=
  fun h => .inr (named_fits h)

theorem ftRemoteCmdRequest (f : List Byte) : Statement (.ftRemoteCmdRequest f) :=
  fun h => .inr (named_fits h)

theorem ftCreateSourceRoute (f : List Byte) : Statement (.ftCreateSourceRoute f) :=
  fun h => .inr (named_fits h)

theorem ftAtCommandResponse (f : List Byte) : Statement (.ftAtCommandResponse f) :=
  fun h => .inr (named_fits h)

theorem ftModemStatus (f : List Byte) : Statement (.ftModemStatus f) :=
  fun h => .inr (named_fits h)

theorem ftZbTxStatus (f : List Byte) : Statement (.ftZbTxStatus f) :=
  fun h => .inr (named_fits h)

theorem ftZbRxPacket (f : List Byte) : Statement (.ftZbRxPacket f) :=
  fun h => .inr (named_fits h)

theorem ftZbExplicitRx (f : List Byte) : Statement (.ftZbExplicitRx f) :=
  fun h => .inr (named_fits h)

theorem ftZbIoSampleRx (f : List Byte) : Statement (.ftZbIoSampleRx f) :=
  fun h => .inr (named_fits h)

theorem ftSensorRead (f : List Byte) : Statement (.ftSensorRead f) :=
  fun h => .inr (named_fits h)

theorem ftNodeId (f : List Byte) : Statement (.ftNodeId f) :=
  fun h => .inr (named_fits h)

theorem ftRemoteCmdResponse (f : List Byte) : Statement (.ftRemoteCmdResponse f) :=
  fun h => .inr (named_fits h)

theorem ftOtaFwUpdateStatus (f : List Byte) : Statement (.ftOtaFwUpdateStatus f) :=
  fun h => .inr (named_fits h)

theorem ftRouteRecord (f : List Byte) : Statement (.ftRouteRecord f) :=
  fun h => .inr (named_fits h)

theorem ftUnknown (f : List Byte) : Statement (.ftUnknown f) :=
  fun h => .inr (complete_fits (Bool.and_eq_true_iff.1 (Bool.and_eq_true_iff.1 h).1).1)

theorem feed (c : List Byte) : Statement (.feed c) :=
  fun _ => .inl ⟨rfl, rfl⟩

theorem reset : Statement (.reset) :=
  fun _ => .inl ⟨rfl, rfl⟩

end Sys2Proof.Laws.TableMatch
end

