-- ==== Sys2Proof/Tests/Slice0.lean ====
section
/-! SUPPORT. Tests: ill-formed terms, every row's decoding from the spec's encoding of it, single steps with the
results of spec/95_test_vectors.md, and for every statement with hypotheses a state and operands that meet them. -/

namespace Sys2Proof.Tests

open Sys2Proof.Machine

/-! Helpers -/

/-- A state with the given register and buffer bytes, else as after reset. -/
def stateOf (st : RxState) (bs : List Byte) : State :=
  { State.reset with st := st, buf := Memory.ofBytes bs }

/-- FC of the test vectors. -/
def frameFC : List Byte := [0x7E, 0x00, 0x02, 0x8A, 0x06, 0x6F]

/-- FA of the test vectors, the source's own frame (VX1). -/
def frameFA : List Byte :=
  [0x7E, 0x00, 0x14, 0x92, 0x00, 0x13, 0xA2, 0x00, 0x40, 0x89, 0x16, 0x20, 0x4B, 0x8E, 0x01, 0x01, 0x00, 0x02, 0x01,
   0x00, 0x00, 0x00, 0x00, 0xDB]

/-- FX of the test vectors. -/
def frameFX : List Byte :=
  [0x7E, 0x00, 0x14, 0x92] ++ List.replicate 16 0x00 ++ [0xAB, 0xCD, 0x01, 0xF4]

/-- F17 of the test vectors: type 0x92, 21 bytes. -/
def frameF17 : List Byte := [0x7E, 0x00, 0x11, 0x92] ++ List.replicate 16 0x00 ++ [0x6D]

/-- F18 of the test vectors: type 0x92, 22 bytes. -/
def frameF18 : List Byte := [0x7E, 0x00, 0x12, 0x92] ++ List.replicate 17 0x00 ++ [0x6D]

/-- The frame of VT1 with the given type and checksum. -/
def frameVT1 (t c : Byte) : List Byte := [0x7E, 0x00, 0x03, t, 0x01, 0x02, c]

/-- The outcome is a next state with these fields. -/
def endsIn (o : Host.Outcome State Fault Refusal) (st : RxState) (bs : List Byte) (tr : List Event) : Bool :=
  match o with
  | .next t => t.st == st && Memory.bytes t.buf == bs && t.trace == tr
  | .fault _ => false
  | .refused _ => false

/-! Well-formedness: a term that each check refuses -/

theorem test_ill_lit : (Instr.lit 0x7D).wellFormed = false := by decide
theorem test_ill_seekSkip : (Instr.seekSkip 0x7E).wellFormed = false := by decide
theorem test_ill_csumBad_of_valid : (Instr.csumBad frameFC).wellFormed = false := by decide
theorem test_ill_csumBad_of_no_frame : (Instr.csumBad [0x7E, 0x00]).wellFormed = false := by decide
theorem test_ill_named_wrong_type : (Instr.ftNodeId frameFC).wellFormed = false := by decide
theorem test_ill_named_bad_sum : (Instr.ftModemStatus [0x7E, 0x00, 0x02, 0x8A, 0x06, 0x6E]).wellFormed = false := by
  decide
theorem test_ill_named_wrong_length : (Instr.ftModemStatus [0x7E, 0x00, 0x01, 0x8A, 0x06, 0x6F]).wellFormed = false := by
  decide
theorem test_ill_unknown_of_named : (Instr.ftUnknown frameFC).wellFormed = false := by decide
theorem test_ill_every_opaque_type :
    ([.ftAtCommand, .ftAtCommandQueue, .ftZbTxRequest, .ftExplicitAddrCmd, .ftRemoteCmdRequest, .ftCreateSourceRoute,
      .ftAtCommandResponse, .ftZbTxStatus, .ftZbRxPacket, .ftZbExplicitRx, .ftZbIoSampleRx, .ftSensorRead,
      .ftRemoteCmdResponse, .ftOtaFwUpdateStatus, .ftRouteRecord] : List (List Byte → Instr)).all
      (fun i => !(i frameFC).wellFormed) = true := by decide

/-! Decoding: every row from its encoding (R61, R68, R69; the frames are those of VT1) -/

theorem test_decode_escd : decode (.raw true true 0x5E) = .escd 0x5E := by decide
theorem test_decode_escd_of_esc : decode (.raw true false 0x7D) = .escd 0x7D := by decide
theorem test_decode_escTrunc : decode (.raw false true 0x7D) = .escTrunc := by decide
theorem test_decode_esc : decode (.raw false false 0x7D) = .esc := by decide
theorem test_decode_lit : decode (.raw false false 0x7E) = .lit 0x7E := by decide
theorem test_decode_seekStart : decode (.unesc .seekingStart 0 none 0x7E) = .seekStart := by decide
theorem test_decode_seekSkip : decode (.unesc .seekingStart 0 none 0x99) = .seekSkip 0x99 := by decide
theorem test_decode_lenByte : decode (.unesc .haveStart 1 none 0x7E) = .lenByte 0x7E := by decide
theorem test_decode_payLast : decode (.unesc .bufferingPayload 3 (some 0) 0xFF) = .payLast 0xFF := by decide
theorem test_decode_payLast_longest :
    decode (.unesc .bufferingPayload 65538 (some 0xFFFF) 0x00) = .payLast 0x00 := by decide
theorem test_decode_payByte : decode (.unesc .bufferingPayload 3 (some 1) 0x7E) = .payByte 0x7E := by decide
theorem test_decode_csumBad : decode (.frame (frameVT1 0x92 0x6B)) = .csumBad (frameVT1 0x92 0x6B) := by decide
theorem test_decode_08 : decode (.frame (frameVT1 0x08 0xF4)) = .ftAtCommand (frameVT1 0x08 0xF4) := by decide
theorem test_decode_09 : decode (.frame (frameVT1 0x09 0xF3)) = .ftAtCommandQueue (frameVT1 0x09 0xF3) := by decide
theorem test_decode_10 : decode (.frame (frameVT1 0x10 0xEC)) = .ftZbTxRequest (frameVT1 0x10 0xEC) := by decide
theorem test_decode_11 : decode (.frame (frameVT1 0x11 0xEB)) = .ftExplicitAddrCmd (frameVT1 0x11 0xEB) := by decide
theorem test_decode_17 : decode (.frame (frameVT1 0x17 0xE5)) = .ftRemoteCmdRequest (frameVT1 0x17 0xE5) := by decide
theorem test_decode_21 : decode (.frame (frameVT1 0x21 0xDB)) = .ftCreateSourceRoute (frameVT1 0x21 0xDB) := by decide
theorem test_decode_88 : decode (.frame (frameVT1 0x88 0x74)) = .ftAtCommandResponse (frameVT1 0x88 0x74) := by decide
theorem test_decode_8A : decode (.frame (frameVT1 0x8A 0x72)) = .ftModemStatus (frameVT1 0x8A 0x72) := by decide
theorem test_decode_8B : decode (.frame (frameVT1 0x8B 0x71)) = .ftZbTxStatus (frameVT1 0x8B 0x71) := by decide
theorem test_decode_90 : decode (.frame (frameVT1 0x90 0x6C)) = .ftZbRxPacket (frameVT1 0x90 0x6C) := by decide
theorem test_decode_91 : decode (.frame (frameVT1 0x91 0x6B)) = .ftZbExplicitRx (frameVT1 0x91 0x6B) := by decide
theorem test_decode_92 : decode (.frame (frameVT1 0x92 0x6A)) = .ftZbIoSampleRx (frameVT1 0x92 0x6A) := by decide
theorem test_decode_94 : decode (.frame (frameVT1 0x94 0x68)) = .ftSensorRead (frameVT1 0x94 0x68) := by decide
theorem test_decode_95 : decode (.frame (frameVT1 0x95 0x67)) = .ftNodeId (frameVT1 0x95 0x67) := by decide
theorem test_decode_97 : decode (.frame (frameVT1 0x97 0x65)) = .ftRemoteCmdResponse (frameVT1 0x97 0x65) := by decide
theorem test_decode_A0 : decode (.frame (frameVT1 0xA0 0x5C)) = .ftOtaFwUpdateStatus (frameVT1 0xA0 0x5C) := by decide
theorem test_decode_A1 : decode (.frame (frameVT1 0xA1 0x5B)) = .ftRouteRecord (frameVT1 0xA1 0x5B) := by decide
theorem test_decode_unknown : decode (.frame (frameVT1 0x93 0x69)) = .ftUnknown (frameVT1 0x93 0x69) := by decide
theorem test_decode_unknown_start : decode (.frame (frameVT1 0x7E 0x7E)) = .ftUnknown (frameVT1 0x7E 0x7E) := by decide
theorem test_decode_feed : decode (.op (.feed [0x7E])) = .feed [0x7E] := by decide
theorem test_decode_reset : decode (.op .reset) = .reset := by decide

/-! Bare table words, and that the very next step runs them -/

theorem test_word_esc : decodeTableWord 8 0x7D = some .esc := by decide
theorem test_word_seekStart : decodeTableWord 8 0x7E = some .seekStart := by decide
theorem test_word_lit : decodeTableWord 8 0x00 = some (.lit 0x00) := by decide
theorem test_word_ioSample : decodeTableWord 8 0x92 = some (.ftZbIoSampleRx (zeroFrame 0x92)) := by decide
theorem test_word_routeRecord : decodeTableWord 8 0xA1 = some (.ftRouteRecord (zeroFrame 0xA1)) := by decide
theorem test_word_no_row : decodeTableWord 16 0x7E = none := by decide

theorem test_runs_ioSample :
    endsIn (step (State.reset.withFetchWord 8 0x92)) .seekingStart [] [.ioSample 0] = true := by decide
theorem test_runs_modemStatus :
    endsIn (step (State.reset.withFetchWord 8 0x8A)) .seekingStart [] [.unknown (zeroFrame 0x8A)] = true := by decide
theorem test_runs_seekStart :
    endsIn (step (State.reset.withFetchWord 8 0x7E)) .haveStart [0x7E] [] = true := by decide
theorem test_runs_esc :
    (match step (State.reset.withFetchWord 8 0x7D) with
      | .next t => t.esc && t.midChunk
      | .fault _ => false
      | .refused _ => false) = true := by decide

/-! Single steps -/

/-- VE4: `7D 5D` gives 0x7D. -/
theorem test_escd : exec (.escd 0x5D) (setEsc true State.reset) = .next (handByte 0x7D State.reset) := by rfl
/-- VE13: `7D FF` gives 0xDF. -/
theorem test_escd_ff : exec (.escd 0xFF) (setEsc true State.reset) = .next (handByte 0xDF State.reset) := by rfl
/-- R84's example. -/
theorem test_feed_truncated :
    endsIn (exec (.feed [0x7E, 0x00, 0x7D]) State.reset) .haveStart [0x7E, 0x00] [.report .truncatedEscape] = true := by
  decide
/-- VF3: the second length byte. -/
theorem test_lenByte_third :
    endsIn (exec (.lenByte 0x14) (stateOf .haveStart [0x7E, 0x00])) .bufferingPayload [0x7E, 0x00, 0x14] [] = true := by
  decide
/-- VF2: the first length byte. -/
theorem test_lenByte_second :
    endsIn (exec (.lenByte 0x00) (stateOf .haveStart [0x7E])) .haveStart [0x7E, 0x00] [] = true := by decide
/-- VF4. -/
theorem test_payByte :
    endsIn (exec (.payByte 0x8A) (stateOf .bufferingPayload [0x7E, 0x00, 0x02])) .bufferingPayload
      [0x7E, 0x00, 0x02, 0x8A] [] = true := by decide
/-- VF6: the last byte. -/
theorem test_payLast :
    exec (.payLast 0x6F) (stateOf .bufferingPayload [0x7E, 0x00, 0x02, 0x8A, 0x06]) =
      .next { State.reset with ready := some frameFC } := by rfl
/-- VK4: the carry out of eight bits is dropped, not folded. -/
theorem test_csum_carry : csumOk [0x7E, 0x00, 0x02, 0x8A, 0x06, 0x70] = false := by decide
/-- VX1: the source's checksum holds. -/
theorem test_csum_source : csumOk frameFA = true := by decide
/-- VX1: the source's frame gives the sample 0. -/
theorem test_feed_source_frame :
    endsIn (exec (.feed frameFA) State.reset) .seekingStart [] [.ioSample 0] = true := by decide
/-- VT3: offset 20 is the high byte, 22 is not read. -/
theorem test_ioSample_order :
    endsIn (exec (.ftZbIoSampleRx frameFX) State.reset) .seekingStart [] [.ioSample 0xABCD] = true := by decide
/-- VT2: 22 bytes decode, the checksum byte as low byte. -/
theorem test_ioSample_shortest :
    endsIn (exec (.ftZbIoSampleRx frameF18) State.reset) .seekingStart [] [.ioSample 0x006D] = true := by decide
/-- VT2: 21 bytes are malformed. -/
theorem test_handle_malformed : frameEvent frameF17 = .report .malformedFrame := by decide
/-- VT5: the checksum comes before the type. -/
theorem test_handle_checksum_first :
    frameEvent [0x7E, 0x00, 0x02, 0x92, 0x00, 0x6C] = .report .checksumMismatch := by decide
/-- VR4: reset in mid-frame withdraws nothing. -/
theorem test_reset :
    endsIn (exec .reset { stateOf .bufferingPayload [0x7E, 0x00, 0x02, 0x8A] with
      trace := [.report .truncatedEscape] }) .seekingStart [] [.report .truncatedEscape] = true := by decide
/-- VE9, VE19: pairing is left to right. -/
theorem test_unescape_pairs :
    unescape [0x7D, 0x7D, 0x7D] = ([0x5D], true) ∧ unescape [0x7D, 0x7D, 0x5E] = ([0x5D, 0x5E], false) := by decide
/-- VE7: an output 0x7D is not read again. -/
theorem test_unescape_not_reread : unescape [0x7D, 0x5D, 0x5E] = ([0x7D, 0x5E], false) := by decide
/-- VX7. -/
theorem test_stuff :
    stuff [0x7E, 0x7D, 0x11, 0x13, 0x41] = [0x7D, 0x5E, 0x7D, 0x5D, 0x7D, 0x31, 0x7D, 0x33, 0x41] := by decide
/-- The table of R7. -/
theorem test_constants :
    Config.lenBits = 16 ∧ Config.maxPayload = 65535 ∧ Config.bufCap = 65539 ∧
    Config.sampleHiOff = 20 ∧ Config.sampleLoOff = 21 := by decide
/-- R114: the target of the largest length does not wrap. -/
theorem test_target_no_wrap : targetLen 0xFFFF = 65539 := by decide
/-- D9: the codes of the states. -/
theorem test_phase_codes :
    (State.reset.phase.code = 0) ∧ ((stateOf .haveStart [0x7E]).phase.code = 1) ∧
    ((stateOf .bufferingPayload [0x7E, 0x00, 0x02]).phase.code = 2) ∧
    (({ State.reset with ready := some frameFC } : State).phase.code = 3) := by decide

/-! Witnesses: a state and operands that meet the hypotheses of each statement that has some -/

/-- A state inside the frame FC, one byte short. -/
def inFC : State := stateOf .bufferingPayload [0x7E, 0x00, 0x02, 0x8A, 0x06]

/-- A state inside FC with a byte under way. -/
def inFCWithByte : State := { inFC with unesc := some 0x6F }

theorem witness_wellFormed : (Instr.ftModemStatus frameFC).wellFormed = true := by decide
theorem witness_complete : isCompleteFrame frameFC = true ∧ isCompleteFrame frameFA = true := by decide
theorem witness_settled_reset : State.reset.settled := ⟨rfl, rfl⟩
theorem witness_resting_with_chunks :
    ({ State.reset with input := [.op (.feed [0x7E]), .op (.feed [0x00])] } : State).resting ∧
    (∀ c ∈ ([[0x7E], [0x00]] : List (List Byte)), (unescape c).2 = false) := by
  refine ⟨⟨⟨rfl, rfl⟩, rfl, rfl⟩, by decide⟩
theorem witness_step_frame : ({ State.reset with ready := some frameFC } : State).ready = some frameFC := rfl
theorem witness_step_unesc : inFCWithByte.ready = none ∧ inFCWithByte.unesc = some 0x6F := by decide
theorem witness_step_transfer :
    ({ State.reset with input := [.transfer 0x7E true] } : State).settled := ⟨rfl, rfl⟩
theorem witness_step_op :
    ({ State.reset with input := [.op .reset] } : State).settled ∧
    ({ State.reset with input := [.op .reset] } : State).midChunk = false := ⟨⟨rfl, rfl⟩, rfl⟩
theorem witness_idle : State.reset.settled ∧ State.reset.input = [] := ⟨⟨rfl, rfl⟩, rfl⟩
theorem witness_overlap :
    ({ State.reset with midChunk := true, input := [.op .reset] } : State).settled := ⟨rfl, rfl⟩
theorem witness_truncated_and_not : (unescape [0x41, 0x7D]).2 = true ∧ (unescape [0x41]).2 = false := by decide
theorem witness_lit_byte : (0x7C : Byte) ≠ 0x7D := by decide
theorem witness_skip_byte : (0x7F : Byte) ≠ 0x7E := by decide
theorem witness_payByte_length : 3 + 1 < (1 : PayloadLen).toNat + 4 := by decide
theorem witness_payLast_length : 65538 + 1 = (0xFFFF : PayloadLen).toNat + 4 := by decide
theorem witness_last_byte :
    inFCWithByte.ready = none ∧ inFCWithByte.unesc = some 0x6F ∧ inFCWithByte.st = .bufferingPayload ∧
    inFCWithByte.target = some 6 ∧ Memory.len inFCWithByte.buf + 1 = 6 := by decide
theorem witness_rxInv_seeking : State.reset.rxInv := by unfold State.rxInv; decide
theorem witness_rxInv_one : (stateOf .haveStart [0x7E]).rxInv ∧ Memory.len (stateOf .haveStart [0x7E]).buf = 1 := by
  unfold State.rxInv; decide
theorem witness_rxInv_two :
    (stateOf .haveStart [0x7E, 0x00]).rxInv ∧ Memory.len (stateOf .haveStart [0x7E, 0x00]).buf = 2 := by
  unfold State.rxInv; decide
theorem witness_rxInv_payload :
    (stateOf .bufferingPayload [0x7E, 0x00, 0x02]).rxInv ∧
    (stateOf .bufferingPayload [0x7E, 0x00, 0x02]).target = some 6 ∧
    Memory.len (stateOf .bufferingPayload [0x7E, 0x00, 0x02]).buf + 1 < 6 := by
  unfold State.rxInv; decide
theorem witness_rxInv_last : inFC.rxInv ∧ inFC.target = some 6 ∧ Memory.len inFC.buf + 1 = 6 := by
  unfold State.rxInv; decide
theorem witness_inside_frame :
    let s := stateOf .bufferingPayload [0x7E, 0x00, 0x02]
    s.rxInv ∧ s.settled ∧ s.st = .bufferingPayload ∧ s.target = some 6 ∧
      unescape [0x7D, 0x5E, 0x06] = ([0x7E, 0x06], false) ∧ Memory.len s.buf + [0x7E, 0x06].length < 6 := by
  unfold State.rxInv State.settled; decide
theorem witness_last_fed :
    inFC.settled ∧ inFC.st = .bufferingPayload ∧ inFC.target = some 6 ∧ Memory.len inFC.buf + 1 = 6 ∧
      unescape [0x6F] = ([0x6F], false) ∧ unescape [0x7D, 0x5D] = ([0x7D], false) := ⟨⟨rfl, rfl⟩, by decide⟩
theorem witness_rx : inFC.rxInv ∧ inFC.ready = none := by unfold State.rxInv; decide
theorem witness_length_bytes : frameFC[1]? = some 0x00 ∧ frameFC[2]? = some 0x02 := by decide
theorem witness_append : Memory.wf inFC.buf = true := by decide
theorem witness_other_rows : mayWriteBuffer (.lit 0x41) = false ∧ mayWriteBuffer (.ftNodeId frameFC) = false := by decide
theorem witness_csumBad : csumOk [0x7E, 0x00, 0x02, 0x8A, 0x06, 0x6E] = false := by decide
theorem witness_ioSample_22 : csumOk frameF18 = true ∧ memRead8 frameF18 3 = some 0x92 ∧ 22 ≤ frameF18.length := by decide
theorem witness_ioSample_21 : csumOk frameF17 = true ∧ memRead8 frameF17 3 = some 0x92 ∧ frameF17.length < 22 := by decide
theorem witness_opaque_types :
    ([(0x08, 0xF4), (0x09, 0xF3), (0x10, 0xEC), (0x11, 0xEB), (0x17, 0xE5), (0x21, 0xDB), (0x88, 0x74), (0x8A, 0x72),
      (0x8B, 0x71), (0x90, 0x6C), (0x91, 0x6B), (0x94, 0x68), (0x95, 0x67), (0x97, 0x65), (0xA0, 0x5C),
      (0xA1, 0x5B)] : List (Byte × Byte)).all
      (fun p => csumOk (frameVT1 p.1 p.2) && memRead8 (frameVT1 p.1 p.2) 3 == some p.1) = true := by decide
theorem witness_unnamed_type :
    (0x93 : Byte) ∉ ([0x08, 0x09, 0x10, 0x11, 0x17, 0x21, 0x88, 0x8A, 0x8B, 0x90, 0x91, 0x92, 0x94, 0x95, 0x97, 0xA0,
      0xA1] : List Byte) ∧ csumOk (frameVT1 0x93 0x69) = true ∧ memRead8 (frameVT1 0x93 0x69) 3 = some 0x93 := by decide
theorem witness_transmitted : [(0x7E : Byte), 0x00, 0x02].length = 3 := by decide
theorem witness_changed_byte :
    csumOk frameFC = true ∧ 3 ≤ 5 ∧ frameFC[5]? = some 0x6F ∧ (0x6E : Byte) ≠ 0x6F := by decide
theorem witness_io_has_payload :
    isCompleteFrame [0x7E, 0x00, 0x01, 0x92, 0x6D] = true ∧ csumOk [0x7E, 0x00, 0x01, 0x92, 0x6D] = true ∧
    memRead8 [0x7E, 0x00, 0x01, 0x92, 0x6D] 3 = some 0x92 := by decide
theorem witness_transfers :
    let s : State := { State.reset with input := [.transfer 0x7D false, .transfer 0x5E true, .op .reset] }
    ([0x7D, 0x5E] : List Byte) ≠ [] ∧ s.settled ∧ s.midChunk = false ∧
      s.input = transfers [0x7D, 0x5E] ++ [.op .reset] := by
  unfold State.settled; decide
theorem witness_no_escape : State.reset.esc = false := rfl
theorem witness_two_settled_states :
    let s₂ : State := { State.reset with trace := [.report .malformedFrame], midChunk := true }
    State.reset.settled ∧ s₂.settled ∧ State.reset.st = s₂.st ∧ State.reset.buf = s₂.buf := ⟨⟨rfl, rfl⟩, ⟨rfl, rfl⟩, rfl, rfl⟩
theorem witness_frames :
    State.reset.settled ∧ State.reset.st = .seekingStart ∧ State.reset.buf = [] ∧
    (∀ f ∈ [frameFC, frameFA], isCompleteFrame f = true) := ⟨⟨rfl, rfl⟩, rfl, rfl, by decide⟩
theorem witness_noise :
    State.reset.settled ∧ (0x7E : Byte) ∉ (unescape [0x11, 0x13, 0xFF, 0x00, 0x7D, 0x5D, 0x7D]).1 :=
  ⟨⟨rfl, rfl⟩, by decide⟩
/-- A state that meets the invariant and whose next step completes a frame. -/
theorem witness_inv_step : inFCWithByte.Inv ∧ inFCWithByte.traceSound ∧
    step inFCWithByte = .next { State.reset with ready := some frameFC } := by
  refine ⟨⟨?_, fun h => absurd h (by decide), fun _ _ => rfl, ?_⟩, ?_, by rfl⟩
  · unfold State.rxInv; decide
  · intro f h; cases h
  · intro f h; cases h
theorem witness_instances :
    ([State.reset, State.reset] : Instances)[1]? = some State.reset ∧ step State.reset = .next State.reset := ⟨rfl, rfl⟩

end Sys2Proof.Tests
end

section
/-! PROOFS. Encoding: the payload length and the target length of a frame (R65). -/

namespace Sys2Proof.Machine

/-- A frame that holds both length bytes has their big-endian pair as its payload length (R44, R65). -/
theorem framePlen_eq_bePair {f : List Byte} {hi lo : Byte} (hhi : f[1]? = some hi) (hlo : f[2]? = some lo) :
    framePlen f = some (bePair 16 hi lo) := by
  simp [framePlen, memReadPair, memRead8, hhi, hlo]

/-- The target is a sum of natural numbers, so no width bounds it (R23). -/
theorem targetLen_eq_add_four (p : PayloadLen) : targetLen p = p.toNat + 4 := rfl

/-- Settles O25: the length bytes are read as a big-endian pair of 16 bits, and the target adds four to it in `Nat`. -/
theorem lengthIsBigEndianAndTargetExact : Obligations.LengthIsBigEndianAndTargetExact := by
  refine ⟨fun f hi lo hhi hlo => ?_, fun p => ?_⟩
  · exact ⟨bePair 16 hi lo, framePlen_eq_bePair hhi hlo, bePair_toNat hi lo⟩
  · have hp := payloadLen_lt p
    rw [targetLen_eq_add_four]
    omega

end Sys2Proof.Machine
end

section
/-! PROOFS. Escape Filter: the rows LIT, ESC and ESCD, what each decodes from and what it does (R81 to R83). -/

namespace Sys2Proof.Machine

section Rows

variable (b : Byte) (last : Bool) (s : State)

/-! The row a raw byte decodes to (R61). -/

/-- A pending escape selects ESCD whatever the byte, a 0x7D and the last of a chunk included. -/
theorem decode_raw_of_pending : decode (.raw true last b) = .escd b := rfl

theorem decode_raw_lit {b : Byte} (h : b ≠ Config.esc) : decode (.raw false last b) = .lit b := by
  have hrow : rawRow false last b = .lit := by simp [rawRow, h]
  simp only [decode, decodeRaw, hrow]

theorem decode_raw_esc : decode (.raw false false Config.esc) = .esc := rfl

/-! What the rows do: every field that is not named keeps its value. -/

theorem exec_lit : exec (.lit b) s = .next { s with unesc := some b } := rfl

theorem exec_esc : exec .esc s = .next { s with esc := true } := rfl

theorem exec_escd : exec (.escd b) s = .next { s with esc := false, unesc := some (b ^^^ Config.escXor) } := rfl

/-! The XOR of R83, bit by bit. -/

/-- The constant is the power of two of bit 5, so bit 5 is its only set bit. -/
theorem getLsbD_escXor (i : Nat) : Config.escXor.getLsbD i = decide (i = 5) := by
  have htwo : Config.escXor = BitVec.twoPow 8 5 := by decide
  rw [htwo, BitVec.getLsbD_twoPow]
  simp [eq_comm]

theorem getLsbD_xor_escXor (i : Nat) :
    (b ^^^ Config.escXor).getLsbD i = if i = 5 then !b.getLsbD i else b.getLsbD i := by
  rw [BitVec.getLsbD_xor, getLsbD_escXor]
  by_cases hi : i = 5
  · simp only [hi, decide_true, Bool.xor_true, if_true]
  · simp only [hi, decide_false, Bool.xor_false, if_false]

end Rows

/-- Settles O10: the byte handed on is the raw byte XOR 0x20, and bit 5 is the one set bit of 0x20. -/
theorem escdFlipsBitFive : Obligations.EscdFlipsBitFive :=
  fun b s => ⟨fun last => decode_raw_of_pending b last,
    b ^^^ Config.escXor, exec_escd b s, fun i _ => getLsbD_xor_escXor b i⟩

/-- Settles O8: with no escape pending and a byte other than 0x7D only the last row of R61 applies. -/
theorem litHandsTheByteOnUnchanged : Obligations.LitHandsTheByteOnUnchanged :=
  fun b s => ⟨fun last h => decode_raw_lit last h, exec_lit b s⟩

/-- Settles O9: a 0x7D with a follower is ESC, which writes the pending-escape flag and no other field. -/
theorem escMakesAnEscapePending : Obligations.EscMakesAnEscapePending :=
  ⟨decode_raw_esc, exec_esc⟩

end Sys2Proof.Machine
end

section
/-! PROOFS. FEED: a chunk byte by byte is its unescaped bytes through the reassembler, then the report of a dangling
escape (R151). -/

namespace Sys2Proof.Machine

theorem setEsc_false_of_not_pending {s : State} (he : s.esc = false) : setEsc false s = s := by
  rw [setEsc, ← he]

section ByteSteps

variable (b : Byte) (last : Bool) {s : State}

/-! A byte step from a settled state, by the row of its raw byte (R81 to R84). -/

/-- A byte the filter hands on goes through the later stages at once. -/
theorem settle_handByte (hs : s.settled) : settle (handByte b s) = rxByte s b := by
  have htake : takeByte (handByte b s) = s := by rw [takeByte, handByte, ← hs.1]
  rw [settle_of_unesc b _ (handByte_unesc s b), htake, rxByte]

theorem byteStep_of_pending (hs : s.settled) :
    byteStep b last (setEsc true s) = rxByte (setEsc false s) (b ^^^ Config.escXor) :=
  settle_handByte (b ^^^ Config.escXor) (s := setEsc false s) hs

theorem byteStep_lit {b : Byte} (hs : s.settled) (he : s.esc = false) (hb : b ≠ Config.esc) :
    byteStep b last s = rxByte s b := by
  have hfilter : filterStep b last s = handByte b s := by simp [filterStep, rawRow, he, hb, filterLit]
  rw [byteStep, hfilter, settle_handByte b hs]

theorem byteStep_esc (hs : s.settled) (he : s.esc = false) : byteStep Config.esc false s = setEsc true s := by
  have hfilter : filterStep Config.esc false s = setEsc true s := by simp [filterStep, rawRow, he, filterEsc]
  rw [byteStep, hfilter]
  exact settle_of_settled (setEsc true s) hs

theorem byteStep_escTrunc (hs : s.settled) (he : s.esc = false) :
    byteStep Config.esc true s = raise .truncatedEscape s := by
  have hfilter : filterStep Config.esc true s = raise .truncatedEscape (setEsc false s) := by
    simp [filterStep, rawRow, he, filterEscTrunc]
  rw [byteStep, hfilter, setEsc_false_of_not_pending he]
  exact settle_of_settled (raise .truncatedEscape s) hs

end ByteSteps

theorem rxByte_esc (b : Byte) (s : State) : (rxByte s b).esc = s.esc := by
  simp [rxByte]

theorem rxBytes_cons (b : Byte) (u : List Byte) (s : State) : rxBytes (b :: u) s = rxBytes u (rxByte s b) := rfl

/-- The report of a dangling escape where there is one, else nothing (R84). -/
def reportTruncated (truncated : Bool) (s : State) : State :=
  if truncated then raise .truncatedEscape s else s

/-- The byte steps of a chunk, with no escape pending before it. The induction goes along the cases of `unescape`: an
escape takes two bytes of the chunk, any other byte one. -/
theorem feedBytes_eq_rxBytes (c : List Byte) {s : State} (hs : s.settled) (he : s.esc = false) :
    feedBytes c s = reportTruncated (unescape c).2 (rxBytes (unescape c).1 s) := by
  induction c using unescape.induct generalizing s with
  | case1 => rfl
  | case2 => exact byteStep_escTrunc hs he
  | case3 b hb =>
    rw [unescape_cons_lit hb]
    exact byteStep_lit true hs he hb
  | case4 p rest ih =>
    rw [unescape_cons_pair, rxBytes_cons, feedBytes, List.isEmpty_cons, byteStep_esc hs he, feedBytes,
      byteStep_of_pending p _ hs, setEsc_false_of_not_pending he]
    exact ih (rxByte_settled _ hs) (by rw [rxByte_esc, he])
  | case5 b p rest hb ih =>
    rw [unescape_cons_lit hb, rxBytes_cons, feedBytes, byteStep_lit _ hs he hb]
    exact ih (rxByte_settled b hs) (by rw [rxByte_esc, he])

/-- FEED and its second form (R151). -/
theorem feedChunk_eq_feedByFunctions (c : List Byte) {s : State} (hs : s.settled) :
    feedChunk c s = feedByFunctions c s := by
  rw [feedChunk, feedBytes_eq_rxBytes c (s := setEsc false s) hs rfl, rxBytes_setEsc, feedByFunctions, reportTruncated]
  cases (unescape c).2 <;> rfl

/-- FEED of a chunk that is not truncated is its unescaped bytes through the later stages (R151). -/
theorem exec_feed_of_not_truncated {c u : List Byte} {s : State} (hs : s.settled) (hu : unescape c = (u, false)) :
    exec (.feed c) s = .next (setEsc false (rxBytes u s)) := by
  have hfeed : feedChunk c s = setEsc false (rxBytes u s) := by
    rw [feedChunk_eq_feedByFunctions c hs, feedByFunctions, hu]
    rfl
  exact congrArg Host.Outcome.next hfeed

end Sys2Proof.Machine
end

section
/-! PROOFS. Frame Reassembler: the rows SEEK_SKIP, SEEK_START, LEN_BYTE and PAY_BYTE, and the last byte of a frame
through the stages after the filter (R91 to R95). -/

namespace Sys2Proof.Machine

section Rows

variable (b : Byte) (len : Nat) (plen : Option PayloadLen) (s : State)

/-! The row an unescaped byte decodes to (R68). -/

theorem decode_unesc_seekStart : decode (.unesc .seekingStart len plen Config.start) = .seekStart := rfl

theorem decode_unesc_seekSkip {b : Byte} (hb : b ≠ Config.start) :
    decode (.unesc .seekingStart len plen b) = .seekSkip b := by
  have hrow : unescRow .seekingStart len plen b = .seekSkip := if_neg hb
  simp only [decode, decodeUnesc, hrow]

theorem decode_unesc_lenByte : decode (.unesc .haveStart len plen b) = .lenByte b := rfl

theorem decode_unesc_payLast {len : Nat} {p : PayloadLen} (hl : len + 1 = targetLen p) :
    decode (.unesc .bufferingPayload len (some p) b) = .payLast b := by
  have hrow : unescRow .bufferingPayload len (some p) b = .payLast := if_pos (by simpa using hl)
  simp only [decode, decodeUnesc, hrow]

theorem decode_unesc_payByte {len : Nat} {p : PayloadLen} (hl : len + 1 ≠ targetLen p) :
    decode (.unesc .bufferingPayload len (some p) b) = .payByte b := by
  have hrow : unescRow .bufferingPayload len (some p) b = .payByte := if_neg (by simpa using hl)
  simp only [decode, decodeUnesc, hrow]

/-! What the rows do: every field that is not named keeps its value. -/

theorem exec_seekSkip : exec (.seekSkip b) s = .next s := rfl

theorem exec_seekStart : exec .seekStart s = .next { s with st := .haveStart, buf := [(0, Config.start)] } := rfl

/-- The count that decides is the one after the append (R93). -/
theorem exec_lenByte : exec (.lenByte b) s = .next { s with
    st := if Memory.len s.buf + 1 = 3 then .bufferingPayload else s.st
    buf := s.buf ++ [(Memory.len s.buf, b)] } := by
  have hrow : exec (.lenByte b) s = .next (rxLenByte b s) := rfl
  rw [hrow, rxLenByte, Memory.len_append]
  rfl

theorem exec_payByte : exec (.payByte b) s = .next { s with buf := s.buf ++ [(Memory.len s.buf, b)] } := rfl

/-- The last byte of a frame through reassembler, validator and dispatcher: one event, whatever it is, and the search
starts again (R95, R158). -/
theorem rxByte_payLast {T : Nat} {s : State} (hs : s.settled) (hst : s.st = .bufferingPayload)
    (hT : s.target = some T) (hl : Memory.len s.buf + 1 = T) :
    rxByte s b = { s with
      st := .seekingStart, buf := []
      trace := s.trace ++ [frameEvent (Memory.bytes s.buf ++ [b])] } := by
  rw [rxByte, rx_payLast b s hst hT hl, settleFrame_of_some _ _ (handFrame_ready _ _)]
  simp only [emit, takeFrame, handFrame, setRx, hs.2]

end Rows

/-- Settles O20: the byte is PAY_LAST, and FEED of the chunk is this one byte through the stages after the filter. -/
theorem lastByteEndsTheFrameAttempt : Obligations.LastByteEndsTheFrameAttempt := by
  intro b c s T hs hst hT hl hc
  constructor
  · obtain ⟨p, hp, rfl⟩ := Option.map_eq_some_iff.1 hT
    rw [hst, hp, decode_unesc_payLast b hl]
  · rw [exec_feed_of_not_truncated hs hc, rxBytes_cons, rxByte_payLast b hs hst hT hl]
    rfl

/-- Settles O15: a byte other than the delimiter selects SEEK_SKIP, whose effect is the identity. -/
theorem seekSkipDiscardsSilently : Obligations.SeekSkipDiscardsSilently :=
  fun b s => ⟨fun len plen hb => decode_unesc_seekSkip len plen hb, exec_seekSkip b s⟩

/-- Settles O16: the buffer is the append of the delimiter to the empty buffer, whose length is offset 0. -/
theorem seekStartBeginsAFrame : Obligations.SeekStartBeginsAFrame :=
  ⟨decode_unesc_seekStart, exec_seekStart⟩

/-- Settles O17: HAVE_START alone selects LEN_BYTE, and the row counts the buffer after its append. -/
theorem lenByteAppendsAndCounts : Obligations.LenByteAppendsAndCounts :=
  fun b s => ⟨decode_unesc_lenByte b, exec_lenByte b s⟩

/-- Settles O18: short of the target is not at the target, so the row is PAY_BYTE. -/
theorem payByteAppends : Obligations.PayByteAppends :=
  fun b s => ⟨fun _ _ hl => decode_unesc_payByte b hl.ne, exec_payByte b s⟩

end Sys2Proof.Machine
end

section
/-! PROOFS. Checksum Validator: the sum under the checksum and the row CSUM_BAD (R110 to R112). -/

namespace Sys2Proof.Machine

/-- The sum of a list of bytes by their offsets (R110). -/
theorem byteSum_eq_sum_range (bs : List Byte) : byteSum bs = ∑ i ∈ Finset.range bs.length, (bs.getD i 0).toNat := by
  rw [byteSum, ← Fin.sum_univ_fun_getElem, Finset.sum_range]
  simp only [List.getD_eq_getElem?_getD, Fin.is_lt, getElem?_pos, Option.getD_some]

/-- Dropping the first `k` bytes leaves the sum over the offsets from `k` to the last. -/
theorem byteSum_drop (k : Nat) (f : List Byte) :
    byteSum (f.drop k) = ∑ i ∈ Finset.Ico k f.length, (f.getD i 0).toNat := by
  rw [byteSum_eq_sum_range, Finset.sum_Ico_eq_sum_range, List.length_drop]
  simp only [List.getD_eq_getElem?_getD, List.getElem?_drop]

theorem csumOk_iff (f : List Byte) : csumOk f = true ↔ byteSum (f.drop 3) % 256 = 0xFF :=
  beq_iff_eq

theorem decode_frame_of_csum_bad {f : List Byte} (h : csumOk f = false) : decode (.frame f) = .csumBad f := by
  simp only [decode, decodeFrame, h, Bool.false_eq_true, if_false]

theorem exec_csumBad (f : List Byte) (s : State) :
    exec (.csumBad f) s = .next { s with trace := s.trace ++ [.report .checksumMismatch] } := rfl

/-- Settles O28: the model's residue modulo 256 is the mask, and its sum over the list is the sum over the offsets. -/
theorem checksumSumsFromOffsetThree : Obligations.ChecksumSumsFromOffsetThree := by
  intro f
  have hmask (n : Nat) : n &&& 0xFF = n % 256 := Nat.and_two_pow_sub_one_eq_mod n 8
  rw [csumOk_iff, byteSum_drop, hmask]

/-- Settles O29: the checksum is judged before the type byte, and the row emits its report and writes no other field. -/
theorem csumBadReportsAndDrops : Obligations.CsumBadReportsAndDrops :=
  fun f s => ⟨decode_frame_of_csum_bad, exec_csumBad f s⟩

end Sys2Proof.Machine
end

section
/-! PROOFS. Frame Dispatcher: the row of a checksum-valid frame by its type byte, and the rows that pass the whole frame
on (R120, R124, R125, R127 to R142). -/

namespace Sys2Proof.Machine

/-- The row of a checksum-valid frame is that of the type its type byte names (R69). -/
theorem decode_frame_of_type {f : List Byte} {t : Byte} (hc : csumOk f = true) (ht : memRead8 f 3 = some t) :
    decode (.frame f) = decodeType (FrameType.ofByte t) f := by
  have hname : (memRead8 f Config.typeOff).bind FrameType.ofByte = FrameType.ofByte t :=
    congrArg (Option.bind · FrameType.ofByte) ht
  rw [decode, decodeFrame, if_pos hc, hname]

/-- Of the rows of checksum-valid frames only that of type 0x92 does not pass the whole frame on (R125). -/
theorem exec_decodeType_of_not_ioSample {k : Option FrameType} (hk : k ≠ some .zbIoSampleRx) (f : List Byte)
    (s : State) : exec (decodeType k f) s = .next { s with trace := s.trace ++ [.unknown f] } := by
  cases k with
  | none => rfl
  | some k =>
    cases k
    case zbIoSampleRx => contradiction
    all_goals rfl

/-- Every type byte that does not name type 0x92, named or not, selects a row that passes the whole frame on. -/
theorem passesWhole_decodeType {t : Byte} (ht : FrameType.ofByte t ≠ some .zbIoSampleRx) :
    passesWhole t (decodeType (FrameType.ofByte t)) :=
  fun f s hc hf => ⟨decode_frame_of_type hc hf, exec_decodeType_of_not_ioSample ht f s⟩

/-- Each of the sixteen named opaque types passes the whole frame on by the row of its own name. -/
theorem passesWhole_code {k : FrameType} (hk : k ≠ .zbIoSampleRx) : passesWhole k.code (decodeType (some k)) := by
  have hname : FrameType.ofByte k.code = some k := FrameType.ofByte_code k
  rw [← hname]
  exact passesWhole_decodeType (by simpa only [hname, ne_eq, Option.some.injEq] using hk)

/-- Settles O31: the eight types are named, and none of them is type 0x92. -/
theorem opaqueTypesToModemStatusPassWhole : Obligations.OpaqueTypesToModemStatusPassWhole :=
  ⟨passesWhole_code (k := .atCommand) nofun, passesWhole_code (k := .atCommandQueue) nofun,
    passesWhole_code (k := .zbTxRequest) nofun, passesWhole_code (k := .explicitAddrCmd) nofun,
    passesWhole_code (k := .remoteCmdRequest) nofun, passesWhole_code (k := .createSourceRoute) nofun,
    passesWhole_code (k := .atCommandResponse) nofun, passesWhole_code (k := .modemStatus) nofun⟩

/-- Settles O32: these eight types too are named, and none of them is type 0x92. -/
theorem opaqueTypesFromTxStatusPassWhole : Obligations.OpaqueTypesFromTxStatusPassWhole :=
  ⟨passesWhole_code (k := .zbTxStatus) nofun, passesWhole_code (k := .zbRxPacket) nofun,
    passesWhole_code (k := .zbExplicitRx) nofun, passesWhole_code (k := .sensorRead) nofun,
    passesWhole_code (k := .nodeId) nofun, passesWhole_code (k := .remoteCmdResponse) nofun,
    passesWhole_code (k := .otaFwUpdateStatus) nofun, passesWhole_code (k := .routeRecord) nofun⟩

end Sys2Proof.Machine
end

section
/-! PROOFS. Host operations: FEED in its second form (R151), and `handle`, what the row of any frame does (R158). -/

namespace Sys2Proof.Machine

/-- The second form keeps R30: the reassembler does, and neither the flag nor the report is part of it. -/
theorem feedByFunctions_rxInv (c : List Byte) {s : State} (h : s.rxInv) : (feedByFunctions c s).rxInv := by
  have hrx : (rxBytes (unescape c).1 s).rxInv := rxBytes_rxInv _ h
  rw [feedByFunctions]
  split
  case isTrue => exact rxInv_congr (t := raise _ (setEsc false _)) rfl rfl hrx
  case isFalse => exact rxInv_congr (t := setEsc false _) rfl rfl hrx

/-- Settles O38: the byte-serial FEED is its second form, and `rx` keeps R30 on each unescaped byte. -/
theorem feedIsUnescapeThenRx : Obligations.FeedIsUnescapeThenRx :=
  fun c _ hs => ⟨congrArg Host.Outcome.next (feedChunk_eq_feedByFunctions c hs), feedByFunctions_rxInv c⟩

/-- The type byte is the code of a type exactly where it names that type; a frame without a type byte names none (R69). -/
theorem typeIs_code_iff (f : List Byte) (k : FrameType) :
    typeIs f k.code = true ↔ (memRead8 f Config.typeOff).bind FrameType.ofByte = some k := by
  rw [typeIs, beq_iff_eq, Option.bind_eq_some_iff]
  constructor
  · exact fun ht => ⟨k.code, ht, FrameType.ofByte_code k⟩
  · rintro ⟨t, ht, hk⟩
    rw [ht, FrameType.code_of_ofByte hk]

/-- FRAME: exec of the decoded row is `handle` (R158). The decoder and `handle` judge the checksum first; of the rows of
valid frames only that of type 0x92 reads the length. -/
theorem exec_decode_frame (f : List Byte) (s : State) : exec (decode (.frame f)) s = .next (handle f s) := by
  rw [decode, decodeFrame, handle]
  by_cases hc : csumOk f = true
  · have htype := typeIs_code_iff f .zbIoSampleRx
    rw [if_pos hc, if_pos hc, dispatch]
    by_cases ht : typeIs f Config.ftIoSample = true
    · rw [if_pos ht, htype.1 ht]
      rfl
    · rw [if_neg ht, exec_decodeType_of_not_ioSample (mt htype.2 ht)]
      rfl
  · rw [if_neg hc, if_neg hc]
    rfl

/-- Settles O34: the row is `handle`, which emits the frame's event and writes no other field. -/
theorem everyFrameGivesItsOneEvent : Obligations.EveryFrameGivesItsOneEvent := by
  intro f s
  rw [exec_decode_frame, handle_eq_emit]
  rfl

end Sys2Proof.Machine
end

section
/-! PROOFS. Reset and hazards: the reset state's register, buffer and escape flag (R181). -/

namespace Sys2Proof.Machine

/-- Settles O43, by the reset state's field laws. -/
theorem resetStateIsTheInitialState : Obligations.ResetStateIsTheInitialState :=
  ⟨reset_st, reset_buf, reset_esc⟩

end Sys2Proof.Machine
end

section
/-! PROOFS. Encoding: decode and encode agree on the well-formed instructions of all 30 rows (R60, R61, R68, R69). -/

namespace Sys2Proof.Machine

/-- A well-formed frame of a named type decodes by that name: its checksum is valid and its type byte is the type's. -/
theorem decode_frame_of_named {k : FrameType} {f : List Byte} (h : namedFrame k f = true) :
    decode (.frame f) = decodeType (some k) f := by
  simp only [namedFrame, Bool.and_eq_true] at h
  obtain ⟨⟨-, hc⟩, ht⟩ := h
  rw [decode, decodeFrame, if_pos hc, (typeIs_code_iff f k).1 ht]

theorem decode_frame_of_unnamed {f : List Byte} (h : unnamedFrame f = true) : decode (.frame f) = .ftUnknown f := by
  simp only [unnamedFrame, Bool.and_eq_true, Option.isNone_iff_eq_none] at h
  obtain ⟨⟨-, hc⟩, hname⟩ := h
  rw [decode, decodeFrame, if_pos hc, hname]
  rfl

/-- Settles O1: a case per row. The rows of the filter and the reassembler decode from the context `encode` gives them,
those of the frames from the checksum and the type byte that well-formedness fixes. -/
theorem encodedInstrDecodesToItself : Obligations.EncodedInstrDecodesToItself := by
  intro i h
  cases i
  case escd | escTrunc | esc | seekStart | lenByte | payLast | payByte | feed | reset => rfl
  case lit b => exact decode_raw_lit false (bne_iff_ne.1 h)
  case seekSkip b => exact decode_unesc_seekSkip 0 none (bne_iff_ne.1 h)
  case csumBad f => exact decode_frame_of_csum_bad (by simpa using (Bool.and_eq_true_iff.1 h).2)
  case ftUnknown f => exact decode_frame_of_unnamed h
  all_goals exact decode_frame_of_named h

/-- A checksum-valid CompleteFrame decodes to a well-formed row, whether its type byte has a name or not. -/
theorem decodeType_wellFormed {f : List Byte} (hf : isCompleteFrame f = true) (hc : csumOk f = true) :
    (decodeType ((memRead8 f Config.typeOff).bind FrameType.ofByte) f).wellFormed = true := by
  cases hname : (memRead8 f Config.typeOff).bind FrameType.ofByte with
  | none =>
    have hrow : unnamedFrame f = true := by simp [unnamedFrame, hf, hc, hname]
    exact hrow
  | some k =>
    have hrow : namedFrame k f = true := by simp [namedFrame, hf, hc, (typeIs_code_iff f k).2 hname]
    cases k <;> exact hrow

/-- Settles O2: the format of the symbol, then the conditions that select its row. -/
theorem decodedInstrIsWellFormed : Obligations.DecodedInstrIsWellFormed := by
  intro sym hsym
  cases sym with
  | raw esc last b =>
    cases esc with
    | true => rfl
    | false =>
      by_cases hb : b = Config.esc
      · subst hb
        cases last <;> rfl
      · rw [decode_raw_lit last hb]
        exact bne_iff_ne.2 hb
  | unesc st len plen b =>
    cases st with
    | seekingStart =>
      by_cases hb : b = Config.start
      · subst hb
        rfl
      · rw [decode_unesc_seekSkip len plen hb]
        exact bne_iff_ne.2 hb
    | haveStart => rfl
    | bufferingPayload =>
      simp only [decode, decodeUnesc, unescRow]
      by_cases hlast : (plen.any fun p => len + 1 == targetLen p) = true
      · simp only [hlast, if_true, Instr.wellFormed]
      · simp only [hlast, if_false, Instr.wellFormed, Bool.false_eq_true]
  | frame f =>
    have hf : isCompleteFrame f = true := hsym f rfl
    by_cases hc : csumOk f = true
    · rw [decode, decodeFrame, if_pos hc]
      exact decodeType_wellFormed hf hc
    · rw [Bool.not_eq_true] at hc
      rw [decode_frame_of_csum_bad hc]
      simp [Instr.wellFormed, hf, hc]
  | op o => cases o <;> rfl

/-- Settles O3: fixed words, evaluated. -/
theorem specWordsDecodeToTheirRows : Obligations.SpecWordsDecodeToTheirRows := by
  unfold Obligations.SpecWordsDecodeToTheirRows
  decide

end Sys2Proof.Machine
end

section
/-! PROOFS. The step: what it does in each situation, what each row does around its own effect, and that only an
overlapping operation stops it (R48, R150, R194, D21). -/

namespace Sys2Proof.Machine

section StepEquations

variable {s : State}

/-- The state once the transfer that stands first in the input has been taken (R24, R150). -/
def takeTransfer (last : Bool) (rest : List Input) (s : State) : State :=
  { s with esc := s.midChunk && s.esc, midChunk := !last, input := rest }

/-- The state once the operation that stands first in the input has been taken (R150). -/
def takeOp (rest : List Input) (s : State) : State :=
  { s with input := rest }

/-! What `fetch` finds first (R48). -/

theorem step_of_ready {f : List Byte} (hf : s.ready = some f) : step s = exec (decode (.frame f)) (takeFrame s) := by
  simp only [step, fetch, hf]

theorem step_of_unesc {b : Byte} (hr : s.ready = none) (hb : s.unesc = some b) :
    step s = exec (decode (.unesc s.st (Memory.len s.buf) s.plen b)) (takeByte s) := by
  simp only [step, fetch, hr, hb]

theorem step_of_transfer {b : Byte} {last : Bool} {rest : List Input} (hs : s.settled)
    (hi : s.input = .transfer b last :: rest) :
    step s = exec (decode (.raw (s.midChunk && s.esc) last b)) (takeTransfer last rest s) := by
  simp only [step, fetch, hs.1, hs.2, hi, fetchTransfer, takeTransfer]

theorem step_of_op {o : Op} {rest : List Input} (hs : s.settled) (hm : s.midChunk = false)
    (hi : s.input = .op o :: rest) : step s = exec (decode (.op o)) (takeOp rest s) := by
  simp only [step, fetch, hs.1, hs.2, hi, fetchOp, hm, Bool.false_eq_true, if_false, takeOp]

theorem step_of_overlap {o : Op} {rest : List Input} (hs : s.settled) (hm : s.midChunk = true)
    (hi : s.input = .op o :: rest) : step s = .refused .overlappingOperations := by
  simp only [step, fetch, hs.1, hs.2, hi, fetchOp, hm, if_true]

theorem step_of_idle (hs : s.settled) (hi : s.input = []) : step s = .next s := by
  simp only [step, fetch, hs.1, hs.2, hi]

/-! The same with the stage's own function in place of the decoded row. -/

theorem step_handles {f : List Byte} (hf : s.ready = some f) : step s = .next (emit (frameEvent f) (takeFrame s)) := by
  rw [step_of_ready hf, exec_decode_frame, handle_eq_emit]

theorem step_reassembles {b : Byte} (hr : s.ready = none) (hb : s.unesc = some b) :
    step s = .next (rx b (takeByte s)) := by
  rw [step_of_unesc hr hb]
  exact exec_decode_unesc b (takeByte s)

theorem step_filters {b : Byte} {last : Bool} {rest : List Input} (hs : s.settled)
    (hi : s.input = .transfer b last :: rest) : step s = .next (filterStep b last (takeTransfer last rest s)) := by
  rw [step_of_transfer hs hi]
  exact exec_decode_raw b last (takeTransfer last rest s)

theorem step_feeds {c : List Byte} {rest : List Input} (hs : s.settled) (hm : s.midChunk = false)
    (hi : s.input = .op (.feed c) :: rest) : step s = .next (feedChunk c (takeOp rest s)) := by
  rw [step_of_op hs hm hi]
  rfl

theorem step_resets {rest : List Input} (hs : s.settled) (hm : s.midChunk = false)
    (hi : s.input = .op .reset :: rest) : step s = .next (resetBlock (takeOp rest s)) := by
  rw [step_of_op hs hm hi]
  rfl

end StepEquations

/-- All that a step can meet, with what it then leads to. -/
inductive StepResult (s : State) : Host.Outcome State Fault Refusal → Prop
  | handled {f : List Byte} (hf : s.ready = some f) : StepResult s (.next (emit (frameEvent f) (takeFrame s)))
  | reassembled {b : Byte} (hr : s.ready = none) (hb : s.unesc = some b) : StepResult s (.next (rx b (takeByte s)))
  | filtered {b : Byte} {last : Bool} {rest : List Input} (hs : s.settled) (hi : s.input = .transfer b last :: rest) :
      StepResult s (.next (filterStep b last (takeTransfer last rest s)))
  | fed {c : List Byte} {rest : List Input} (hs : s.settled) (hm : s.midChunk = false)
      (hi : s.input = .op (.feed c) :: rest) : StepResult s (.next (feedChunk c (takeOp rest s)))
  | wasReset {rest : List Input} (hs : s.settled) (hm : s.midChunk = false) (hi : s.input = .op .reset :: rest) :
      StepResult s (.next (resetBlock (takeOp rest s)))
  | idle (hs : s.settled) (hi : s.input = []) : StepResult s (.next s)
  | overlapped {o : Op} {rest : List Input} (hs : s.settled) (hm : s.midChunk = true) (hi : s.input = .op o :: rest) :
      StepResult s (.refused .overlappingOperations)

/-- The situations are exhaustive, in the order of `fetch`. -/
theorem stepResult_step (s : State) : StepResult s (step s) := by
  cases hf : s.ready with
  | some f => exact step_handles hf ▸ .handled hf
  | none =>
    cases hb : s.unesc with
    | some b => exact step_reassembles hf hb ▸ .reassembled hf hb
    | none =>
      have hs : s.settled := ⟨hb, hf⟩
      match hi : s.input with
      | [] => exact step_of_idle hs hi ▸ .idle hs hi
      | .transfer b last :: rest => exact step_filters hs hi ▸ .filtered hs hi
      | .op o :: rest =>
        cases hm : s.midChunk with
        | true => exact step_of_overlap hs hm hi ▸ .overlapped hs hm hi
        | false =>
          cases o with
          | feed c => exact step_feeds hs hm hi ▸ .fed hs hm hi
          | reset => exact step_resets hs hm hi ▸ .wasReset hs hm hi

/-! What every row does around its own effect. -/

/-- Each of the nineteen rows a frame can decode to appends one event and does nothing else (R158). -/
theorem exec_frameRow {i : Instr} (hi : (encode i).format = .frame) (s : State) : ∃ e, exec i s = .next (emit e s) := by
  cases i
  case csumBad f => exact ⟨.report .checksumMismatch, rfl⟩
  case ftZbIoSampleRx f =>
    have hrow : exec (.ftZbIoSampleRx f) s = .next (decodeIoSample f s) := rfl
    rw [hrow, decodeIoSample]
    cases sampleOf f with
    | some v => exact ⟨.ioSample v, rfl⟩
    | none => exact ⟨.report .malformedFrame, rfl⟩
  case escd | escTrunc | esc | lit | seekStart | seekSkip | lenByte | payLast | payByte | feed | reset => contradiction
  all_goals exact ⟨.unknown _, rfl⟩

/-- A row that does not write the buffer leaves the register and the buffer as they are (R20, R45). -/
theorem exec_keeps_rx {i : Instr} (hi : mayWriteBuffer i = false) (s : State) :
    ∃ t, exec i s = .next t ∧ t.st = s.st ∧ t.buf = s.buf := by
  by_cases hframe : (encode i).format = .frame
  · obtain ⟨e, he⟩ := exec_frameRow hframe s
    exact ⟨_, he, rfl, rfl⟩
  · cases i
    case escd | escTrunc | esc | lit | seekSkip => exact ⟨_, rfl, rfl, rfl⟩
    case seekStart | lenByte | payLast | payByte | feed | reset => contradiction
    all_goals exact absurd rfl hframe

/-- Settles O53: the rows of a frame and ESC_TRUNC append one event, FEED those of its byte steps, the others none. -/
theorem theTraceOnlyGrows : Obligations.TheTraceOnlyGrows := by
  intro i s
  by_cases hframe : (encode i).format = .frame
  · obtain ⟨e, he⟩ := exec_frameRow hframe s
    exact ⟨_, [e], he, rfl, rfl, rfl⟩
  · cases i
    case feed c =>
      obtain ⟨es, hes⟩ := feedBytes_trace_grows (setEsc false s) c
      exact ⟨feedChunk c s, es, rfl, hes, feedChunk_input s c, feedChunk_midChunk s c⟩
    case escTrunc => exact ⟨_, [.report .truncatedEscape], rfl, rfl, rfl, rfl⟩
    case escd | esc | lit | seekStart | seekSkip | lenByte | payLast | payByte | reset =>
      exact ⟨_, [], rfl, (List.append_nil _).symm, rfl, rfl⟩
    all_goals exact absurd rfl hframe

/-- Settles O7: every row answers a next state, and so does every situation of a step but the overlap. -/
theorem nothingButOverlapStops : Obligations.NothingButOverlapStops := by
  constructor
  · intro i s
    obtain ⟨t, -, ht, -⟩ := theTraceOnlyGrows i s
    exact ⟨t, ht⟩
  · intro s
    have hstep := stepResult_step s
    generalize step s = r at hstep ⊢
    cases hstep with
    | overlapped hs hm hi => exact .inr ⟨rfl, hs, hm, _, _, hi⟩
    | handled | reassembled | filtered | fed | wasReset | idle => exact .inl ⟨_, rfl⟩

/-- Settles O27: equal buffers read alike at every address. -/
theorem otherRowsLeaveTheBuffer : Obligations.OtherRowsLeaveTheBuffer := by
  intro i s hi
  obtain ⟨t, ht, hst, hbuf⟩ := exec_keeps_rx hi s
  exact ⟨t, ht, hst, fun a => by rw [hbuf]⟩

/-- Settles O4: the four situations in which a symbol stands next. -/
theorem stepRunsTheDecodedInstruction : Obligations.StepRunsTheDecodedInstruction :=
  fun _ => ⟨fun _ => step_of_ready, fun _ => step_of_unesc, fun _ _ _ => step_of_transfer, fun _ _ => step_of_op⟩

/-- Settles O5: in a settled state only the input could hold something to take. -/
theorem idleStepChangesNothing : Obligations.IdleStepChangesNothing :=
  fun _ => step_of_idle

/-- Settles O6: the position on IN alone decides that an operation is refused. -/
theorem operationInsideChunkIsRefused : Obligations.OperationInsideChunkIsRefused :=
  fun _ _ _ => step_of_overlap

/-- Settles O54: the step replaces entry `k` of the list of instances. -/
theorem instancesShareNothing : Obligations.InstancesShareNothing := by
  intro k m s t hk hst
  have hlt : k < m.length := (List.getElem?_eq_some_iff.1 hk).1
  refine ⟨m.set k t, ?_, ?_, List.length_set, ?_⟩
  · simp only [Instances.stepAt, hk, hst]
  · rw [List.getElem?_set_self hlt]
  · exact fun j hj => List.getElem?_set_ne hj.symm

end Sys2Proof.Machine
end

section
/-! PROOFS. Escape Filter: ESC_TRUNC, and the filter's function form on joined and on stuffed bytes (R63, R84, R85,
R87). -/

namespace Sys2Proof.Machine

/-- Settles O11: the last byte of its chunk cannot be ESC, and the row's report is the one event it appends. -/
theorem escTruncReportsAndDropsTheByte : Obligations.EscTruncReportsAndDropsTheByte :=
  ⟨rfl, fun _ => rfl⟩

/-- Settles O14, along the cases of `unescape` on the first chunk: only a lone 0x7D at its end could pair with a byte of
the second. -/
theorem unescapeJoinsWhereNotTruncated : Obligations.UnescapeJoinsWhereNotTruncated := by
  intro c₁ c₂ hc
  induction c₁ using unescape.induct with
  | case1 => rfl
  | case2 => exact absurd hc (by decide)
  | case3 b hb =>
    rw [List.singleton_append, unescape_cons_lit hb, unescape_cons_lit hb]
    rfl
  | case4 p rest ih =>
    rw [unescape_cons_pair] at hc
    rw [List.cons_append, List.cons_append, unescape_cons_pair, unescape_cons_pair, ih hc]
    rfl
  | case5 b p rest hb ih =>
    rw [unescape_cons_lit hb] at hc
    rw [List.cons_append, unescape_cons_lit hb, unescape_cons_lit hb, ih hc]
    rfl

/-- What one byte is sent as comes back as that byte: 0x7D itself is among the stuffed values, so a byte sent bare is no
escape. -/
theorem unescape_stuffByte (b : Byte) : unescape (stuffByte b) = ([b], false) := by
  rw [stuffByte]
  by_cases hb : isStuffed b = true
  · rw [if_pos hb, unescape_cons_pair, xor_escXor_twice]
    rfl
  · have hne : b ≠ Config.esc := by
      rintro rfl
      exact hb (by decide)
    rw [if_neg hb, unescape_cons_lit hne]
    rfl

theorem unescape_stuff (u : List Byte) : unescape (stuff u) = (u, false) := by
  induction u with
  | nil => rfl
  | cons b u ih =>
    have hcons : stuff (b :: u) = stuffByte b ++ stuff u := rfl
    have hb := unescape_stuffByte b
    rw [hcons, unescapeJoinsWhereNotTruncated _ _ (by rw [hb]), hb, ih]
    rfl

/-- Settles O13: each stuffed byte comes back alone; 7D 00 unescapes to 0x20, which is sent bare. -/
theorem stuffedBytesComeBack : Obligations.StuffedBytesComeBack :=
  fun u => ⟨unescape_stuff u, fun _ hs => exec_feed_of_not_truncated hs (unescape_stuff u), by decide⟩

/-- A frame starts with the delimiter, which is no escape, so its wire form unescapes to it (R76). -/
theorem unescape_wireForm {f : List Byte} (hf : f.head? ≠ some Config.esc) : unescape (wireForm f) = (f, false) := by
  cases f with
  | nil => rfl
  | cons b rest =>
    have hb : b ≠ Config.esc := fun h => hf (congrArg some h)
    rw [wireForm, unescape_cons_lit hb, unescape_stuff]

theorem unescape_wireForms {fs : List (List Byte)} (hfs : ∀ f ∈ fs, f.head? ≠ some Config.esc) :
    unescape (fs.flatMap wireForm) = (fs.flatten, false) := by
  induction fs with
  | nil => rfl
  | cons f fs ih =>
    have hf := unescape_wireForm (hfs f List.mem_cons_self)
    rw [List.flatMap_cons, unescapeJoinsWhereNotTruncated _ _ (by rw [hf]), hf,
      ih fun g hg => hfs g (List.mem_cons_of_mem f hg)]
    rfl

end Sys2Proof.Machine
end

section
/-! PROOFS. FEED's later stages: how the reassembler's step depends on the state, and that all they append are the
events of CompleteFrames (R97, R143, R156). -/

namespace Sys2Proof.Machine

/-- What `rx` writes depends on the register, the buffer and the frame under way alone (R96). -/
theorem rx_congr (b : Byte) {s r : State} (hst : s.st = r.st) (hbuf : s.buf = r.buf) (hready : s.ready = r.ready) :
    rx b s = { s with st := (rx b r).st, buf := (rx b r).buf, ready := (rx b r).ready } := by
  have hplen : s.plen = r.plen := plen_congr hbuf
  unfold rx
  rw [hst, hbuf, hplen]
  cases unescRow r.st (Memory.len r.buf) r.plen b
  case seekSkip =>
    simp only [rxSeekSkip, ← hst, ← hbuf, ← hready]
  all_goals
    simp only [rxSeekStart, rxLenByte, rxPayByte, rxPayLast, setRx, handFrame, hst, hbuf, hready]

/-- On every settled state with the register `st₀` and the buffer `buf₀`, the unescaped bytes `u` make these `st` and
`buf`, append the events of the frames `fs`, and change nothing else; under R30 these are CompleteFrames. -/
def progresses (u : List Byte) (st₀ : RxState) (buf₀ : List Host.Cell) (st : RxState) (buf : List Host.Cell)
    (fs : List (List Byte)) : Prop :=
  ∀ s : State, s.settled → s.st = st₀ → s.buf = buf₀ →
    rxBytes u s = { s with st := st, buf := buf, trace := s.trace ++ fs.map frameEvent } ∧
    (s.rxInv → ∀ f ∈ fs, isCompleteFrame f = true)

theorem rxBytes_singleton (b : Byte) (s : State) : rxBytes [b] s = rxByte s b := rfl

/-- The reset state with another register and buffer: it stands for every settled state that has these. -/
def resetWith (st : RxState) (buf : List Host.Cell) : State :=
  { State.reset with st := st, buf := buf }

/-- One unescaped byte moves the register and the buffer by what they hold, and appends the event of a frame it
completes (R96, R158). -/
theorem rxByte_progresses (b : Byte) (st₀ : RxState) (buf₀ : List Host.Cell) :
    ∃ st buf fs, progresses [b] st₀ buf₀ st buf fs := by
  have hrx {s : State} (hs : s.settled) (hst : s.st = st₀) (hbuf : s.buf = buf₀) :=
    rx_congr b (r := resetWith st₀ buf₀) hst hbuf hs.2
  generalize rx b (resetWith st₀ buf₀) = r at hrx
  refine ⟨r.st, r.buf, r.ready.toList, fun s hs hst hbuf => ?_⟩
  specialize hrx hs hst hbuf
  constructor
  · rw [rxBytes_singleton, rxByte, hrx]
    cases r.ready <;> simp [settleFrame, handle_eq_emit, emit, takeFrame, hs.2]
  · intro hinv f hf
    have hready : (rx b s).ready = some f := by
      rw [hrx]
      exact Option.mem_toList.1 hf
    exact (rx_ready_complete b hinv hs.2 hready).1

/-- The same for any unescaped bytes. -/
theorem rxBytes_progresses (u : List Byte) (st₀ : RxState) (buf₀ : List Host.Cell) :
    ∃ st buf fs, progresses u st₀ buf₀ st buf fs := by
  induction u generalizing st₀ buf₀ with
  | nil =>
    refine ⟨st₀, buf₀, [], fun s _ hst hbuf => ⟨?_, by simp⟩⟩
    rw [← hst, ← hbuf, List.map_nil, List.append_nil]
    rfl
  | cons b u ih =>
    obtain ⟨st₁, buf₁, fs₁, hbyte⟩ := rxByte_progresses b st₀ buf₀
    obtain ⟨st₂, buf₂, fs₂, hbytes⟩ := ih st₁ buf₁
    refine ⟨st₂, buf₂, fs₁ ++ fs₂, fun s hs hst hbuf => ?_⟩
    obtain ⟨hb, hcomplete₁⟩ := hbyte s hs hst hbuf
    rw [rxBytes_singleton] at hb
    obtain ⟨hu, hcomplete₂⟩ := hbytes (rxByte s b) (rxByte_settled b hs) (by rw [hb]) (by rw [hb])
    constructor
    · rw [rxBytes_cons, hu, hb, List.map_append, List.append_assoc]
    · intro hinv f hf
      rcases List.mem_append.1 hf with hf | hf
      · exact hcomplete₁ hinv f hf
      · exact hcomplete₂ (rxByte_rxInv b hinv) f hf

/-- The event of a dangling escape, where there is one (R84). -/
def truncationEvents (c : List Byte) : List Event :=
  if (unescape c).2 then [.report .truncatedEscape] else []

/-- FEED writes the register, the buffer and the flag, and appends the events of the frames it completes, then that of a
dangling escape; all but the flag by what register, buffer and chunk are (R151, R156). -/
theorem feedChunk_progress (c : List Byte) (st₀ : RxState) (buf₀ : List Host.Cell) :
    ∃ (st : RxState) (buf : List Host.Cell) (fs : List (List Byte)),
    ∀ s : State, s.settled → s.st = st₀ → s.buf = buf₀ →
      feedChunk c s = { s with
        st := st, buf := buf, esc := false
        trace := s.trace ++ (fs.map frameEvent ++ truncationEvents c) } ∧
      (s.rxInv → ∀ f ∈ fs, isCompleteFrame f = true) := by
  obtain ⟨st, buf, fs, h⟩ := rxBytes_progresses (unescape c).1 st₀ buf₀
  refine ⟨st, buf, fs, fun s hs hst hbuf => ?_⟩
  obtain ⟨hu, hcomplete⟩ := h s hs hst hbuf
  refine ⟨?_, hcomplete⟩
  rw [feedChunk_eq_feedByFunctions c hs, feedByFunctions, hu, truncationEvents]
  cases (unescape c).2 <;> simp [raise, emit, setEsc]

theorem frameEvent_ne_truncatedEscape (f : List Byte) : frameEvent f ≠ .report .truncatedEscape := by
  unfold frameEvent
  split
  · split
    · cases sampleOf f <;> nofun
    · nofun
  · nofun

/-- Settles O12: the events of frames are none, and the report of the dangling escape follows them. -/
theorem truncatedEscapeIsLastAndOnce : Obligations.TruncatedEscapeIsLastAndOnce := by
  intro c s hs
  obtain ⟨st, buf, fs, h⟩ := feedChunk_progress c s.st s.buf
  obtain ⟨hfeed, -⟩ := h s hs rfl rfl
  refine ⟨feedChunk c s, fs.map frameEvent, rfl, ?_, ?_⟩
  · rw [List.mem_map]
    rintro ⟨f, -, hf⟩
    exact frameEvent_ne_truncatedEscape f hf
  · rw [hfeed, List.append_assoc]
    rfl

/-- Settles O44: what FEED writes is fixed before the state is chosen. -/
theorem onlyStateAndBufferCarryOver : Obligations.OnlyStateAndBufferCarryOver := by
  intro c s₁ s₂ hs₁ hs₂ hst hbuf
  obtain ⟨st, buf, fs, h⟩ := feedChunk_progress c s₁.st s₁.buf
  obtain ⟨hfeed₁, -⟩ := h s₁ hs₁ rfl rfl
  obtain ⟨hfeed₂, -⟩ := h s₂ hs₂ hst.symm hbuf.symm
  exact ⟨st, buf, fs.map frameEvent ++ truncationEvents c, congrArg Host.Outcome.next hfeed₁,
    congrArg Host.Outcome.next hfeed₂⟩

end Sys2Proof.Machine
end

section
/-! PROOFS. The whole machine: the invariant of R30 and what goes with it, and the soundness of the trace. -/

namespace Sys2Proof.Machine

/-- Settles O49: the reset state's fields. -/
theorem resetMeetsTheInvariants : Obligations.ResetMeetsTheInvariants :=
  ⟨⟨rxInv_initial rfl rfl, nofun, nofun, nofun⟩, ⟨⟨rfl, rfl⟩, rfl, rfl⟩, nofun⟩

/-- With nothing under way and no escape pending the invariant is R30. -/
theorem inv_of_settled {s : State} (hrx : s.rxInv) (hs : s.settled) (he : s.esc = false) : s.Inv := by
  obtain ⟨hunesc, hready⟩ := hs
  exact ⟨hrx, by simp [he], by simp [hunesc], by simp [hready]⟩

/-- Under the invariant something under way means that no escape is pending (R24). -/
theorem esc_false_of_inv {s : State} (h : s.Inv) (hs : ¬ s.settled) : s.esc = false := by
  obtain ⟨-, hesc, -⟩ := h
  exact Bool.eq_false_iff.2 fun he => hs (hesc he).2

/-- The reassembler takes its byte: a frame it completes goes on alone. -/
theorem rx_inv (b : Byte) {s : State} (hrx : s.rxInv) (hs : s.settled) (he : s.esc = false) : (rx b s).Inv := by
  obtain ⟨hunesc, hready⟩ := hs
  refine ⟨rx_rxInv b hrx, ?_, ?_, fun f hf => rx_ready_complete b hrx hready hf⟩
  · simp [he]
  · simp [hunesc]

/-- The filter takes a byte: it hands one on, or leaves an escape pending with bytes of the chunk to come. -/
theorem filterStep_inv (b : Byte) {last : Bool} {s : State} (hrx : s.rxInv) (hs : s.settled)
    (hm : s.midChunk = !last) : (filterStep b last s).Inv := by
  have hrx' : (filterStep b last s).rxInv := rxInv_congr (by simp) (by simp) hrx
  obtain ⟨hunesc, hready⟩ := hs
  obtain ⟨-, h⟩ | ⟨-, -, -, h⟩ | ⟨-, -, hlast, h⟩ | ⟨he, -, h⟩ := filterStep_cases b s last <;> rw [h] at hrx' ⊢
  · exact ⟨hrx', by simp, by simp [hready], by simp [hready]⟩
  · exact inv_of_settled hrx' ⟨hunesc, hready⟩ rfl
  · exact ⟨hrx', fun _ => ⟨by rw [hm, hlast]; rfl, hunesc, hready⟩, by simp [hunesc], by simp [hready]⟩
  · exact ⟨hrx', by simp [he], by simp [hready], by simp [hready]⟩

theorem feedChunk_rxInv (c : List Byte) {s : State} (hs : s.settled) (hrx : s.rxInv) : (feedChunk c s).rxInv := by
  rw [feedChunk_eq_feedByFunctions c hs]
  exact feedByFunctions_rxInv c hrx

/-- Settles O50: a case per situation of the step. -/
theorem everyStepKeepsTheInvariant : Obligations.EveryStepKeepsTheInvariant := by
  intro s t hinv hstep
  have hrx : s.rxInv := hinv.1
  have hresult := stepResult_step s
  rw [hstep] at hresult
  cases hresult with
  | @handled f hf =>
    have hns : ¬ s.settled := fun hs => by simp [hs.2] at hf
    have he : s.esc = false := esc_false_of_inv hinv hns
    refine ⟨rxInv_congr (s := s) rfl rfl hrx, by simp [he], by simp, by simp⟩
  | @reassembled b hr hb =>
    have hns : ¬ s.settled := fun hs => by simp [hs.1] at hb
    have he : s.esc = false := esc_false_of_inv hinv hns
    exact rx_inv b (s := takeByte s) (rxInv_congr (s := s) rfl rfl hrx) ⟨rfl, hr⟩ he
  | @filtered b last rest hs hi =>
    exact filterStep_inv b (s := takeTransfer last rest s) (rxInv_congr (s := s) rfl rfl hrx) hs rfl
  | @fed c rest hs hm hi =>
    have hrx' : (takeOp rest s).rxInv := rxInv_congr (s := s) rfl rfl hrx
    exact inv_of_settled (feedChunk_rxInv c hs hrx') (feedChunk_settled (takeOp rest s) c hs) rfl
  | wasReset hs hm hi => exact inv_of_settled (rxInv_initial rfl rfl) hs rfl
  | idle hs hi => exact hinv

/-- A frame that `handle` passes on whole has a valid checksum and another type than 0x92 (R112, R124). -/
theorem frameEvent_eq_unknown {f g : List Byte} (h : frameEvent f = .unknown g) :
    g = f ∧ csumOk f = true ∧ typeIs f Config.ftIoSample = false := by
  unfold frameEvent at h
  split at h
  case isTrue hc =>
    split at h
    case isTrue ht => cases hv : sampleOf f <;> simp [hv] at h
    case isFalse ht => exact ⟨(Event.unknown.inj h).symm, hc, by simpa using ht⟩
  case isFalse => simp at h

/-- Appending the events of CompleteFrames keeps a trace sound. -/
theorem traceSound_append_frames {s t : State} (h : s.traceSound) {fs : List (List Byte)}
    (hfs : ∀ f ∈ fs, isCompleteFrame f = true) (ht : t.trace = s.trace ++ fs.map frameEvent) : t.traceSound := by
  intro g hg
  rw [ht, List.mem_append, List.mem_map] at hg
  rcases hg with hg | ⟨f, hf, hfg⟩
  · exact h g hg
  · obtain ⟨rfl, hc, htype⟩ := frameEvent_eq_unknown hfg
    exact ⟨hfs g hf, hc, htype⟩

/-- Appending reports keeps a trace sound. -/
theorem traceSound_append_reports {s t : State} (h : s.traceSound) {rs : List Event}
    (hrs : ∀ f, Event.unknown f ∉ rs) (ht : t.trace = s.trace ++ rs) : t.traceSound := by
  intro g hg
  rw [ht, List.mem_append] at hg
  exact h g (hg.resolve_right (hrs g))

theorem unknown_not_mem_truncationEvents (c f : List Byte) : Event.unknown f ∉ truncationEvents c := by
  unfold truncationEvents
  split <;> simp

theorem feedChunk_traceSound (c : List Byte) {s : State} (hs : s.settled) (hrx : s.rxInv) (h : s.traceSound) :
    (feedChunk c s).traceSound := by
  obtain ⟨st, buf, fs, hp⟩ := feedChunk_progress c s.st s.buf
  obtain ⟨hfeed, hcomplete⟩ := hp s hs rfl rfl
  have hframes : ({ s with trace := s.trace ++ fs.map frameEvent } : State).traceSound :=
    traceSound_append_frames h (hcomplete hrx) rfl
  refine traceSound_append_reports hframes (unknown_not_mem_truncationEvents c) ?_
  rw [hfeed, List.append_assoc]

theorem filterStep_traceSound (b : Byte) (last : Bool) {s : State} (h : s.traceSound) :
    (filterStep b last s).traceSound := by
  obtain ⟨-, hf⟩ | ⟨-, -, -, hf⟩ | ⟨-, -, -, hf⟩ | ⟨-, -, hf⟩ := filterStep_cases b s last <;> rw [hf]
  case inr.inl => exact traceSound_append_reports h (rs := [.report .truncatedEscape]) (by simp) rfl
  all_goals exact h

/-- Settles O51: only the handling of a frame and FEED append other events than reports, and theirs are the events of
frames that the invariant makes CompleteFrames. -/
theorem everyStepKeepsTheTraceSound : Obligations.EveryStepKeepsTheTraceSound := by
  intro s t hinv hsound hstep
  have hresult := stepResult_step s
  rw [hstep] at hresult
  obtain ⟨hrx, -, -, hready⟩ := hinv
  cases hresult with
  | @handled f hf => exact traceSound_append_frames hsound (fs := [f]) (by simpa using (hready f hf).1) rfl
  | @reassembled b hr hb =>
    intro g hg
    rw [rx_trace] at hg
    exact hsound g hg
  | @filtered b last rest hs hi => exact filterStep_traceSound b last (s := takeTransfer last rest s) hsound
  | @fed c rest hs hm hi =>
    exact feedChunk_traceSound c (s := takeOp rest s) hs (rxInv_congr (s := s) rfl rfl hrx) hsound
  | wasReset hs hm hi => exact hsound
  | idle hs hi => exact hsound

end Sys2Proof.Machine
end

section
/-! PROOFS. Frame Reassembler: PAY_LAST, the rows against R96, the transition table R102, the append, and the bytes
inside a frame (R45, R94 to R98). -/

namespace Sys2Proof.Machine

theorem exec_payLast (b : Byte) (s : State) : exec (.payLast b) s = .next { s with
    st := .seekingStart, buf := [], ready := some (Memory.bytes s.buf ++ [b]) } := by
  have hrow : exec (.payLast b) s = .next (rxPayLast b s) := rfl
  rw [hrow, rxPayLast, Memory.bytes_append]
  rfl

/-- Settles O19: the target is four more than the payload length, and the frame is the buffer after its append. -/
theorem payLastCompletesTheFrame : Obligations.PayLastCompletesTheFrame :=
  fun b s => ⟨fun _ _ hl => decode_unesc_payLast b hl, exec_payLast b s⟩

/-- Settles O21: the first step hands the frame on, so the phase shows it; the second is its handling. -/
theorem frameReadyLastsOneStep : Obligations.FrameReadyLastsOneStep := by
  intro b s T hr hb hst hT hl
  have hrx := rx_payLast b (takeByte s) hst hT hl
  refine ⟨_, step_reassembles hr hb, ?_, ?_, ?_, rx_trace b (takeByte s), ?_⟩
  · rw [hrx]
    rfl
  · rw [hrx]
    rfl
  · rw [hrx]
    rfl
  · rw [hrx, step_handles (handFrame_ready _ _)]
    simp only [emit, takeFrame, handFrame, setRx, takeByte, hr]

/-- With no frame waiting a write of the two registers leaves nothing to handle. -/
theorem settleFrame_setRx (st : RxState) (buf : List Host.Cell) {s : State} (hr : s.ready = none) :
    settleFrame (setRx st buf s) = setRx st buf s :=
  settleFrame_of_none (setRx st buf s) hr

theorem setRx_settled (st : RxState) (buf : List Host.Cell) {s : State} (hs : s.settled) :
    (setRx st buf s).settled := hs

/-- In every state that meets R30 the reassembler's step and the handling of its frame are R96's function. In
BUFFERING_PAYLOAD the target is the same before and after the append, as the length bytes are there already. -/
theorem settleFrame_rx_eq_rxR96 (b : Byte) {s : State} (hinv : s.rxInv) (hr : s.ready = none) :
    settleFrame (rx b s) = rxR96 b s := by
  cases hst : s.st with
  | seekingStart =>
    by_cases hb : b = Config.start
    · subst hb
      rw [rx_seeking_start s hst, settleFrame_setRx _ _ hr]
      simp only [rxR96, hst, if_true, setRx]
    · rw [rx_seeking_skip b s hst hb, settleFrame_of_none s hr]
      simp only [rxR96, hst, hb, if_false]
  | haveStart =>
    rw [rx_haveStart b s hst, rxLenByte, settleFrame_setRx _ _ hr]
    simp only [rxR96, hst, Config.hdrBytes]
    split <;> simp [setRx]
  | bufferingPayload =>
    obtain ⟨T, hT, h3, -⟩ := rxInv_target hinv hst
    have htarget (st : RxState) : ({ s with st := st, buf := Memory.append s.buf b } : State).target = some T := by
      rw [target_append b rfl hinv.1 h3, hT]
    simp only [rxR96, hst, htarget, Memory.len_append, Option.some.injEq]
    by_cases hl : Memory.len s.buf + 1 = T
    · rw [if_pos hl, rx_payLast b s hst hT hl, settleFrame_of_some _ _ (handFrame_ready _ _), handle_eq_emit,
        Memory.bytes_append]
      simp only [emit, takeFrame, handFrame, setRx, hr]
    · rw [if_neg hl, rx_payByte b s hst hT hl, settleFrame_setRx _ _ hr, setRx, hst]

/-- Settles O22: the decoded row is `rx`. -/
theorem unescRowsAreRx : Obligations.UnescRowsAreRx :=
  fun b s hinv hr => ⟨rx b s, exec_decode_unesc b s, settleFrame_rx_eq_rxR96 b hinv hr⟩

/-! Items 1 and 2 of R30. -/

theorem rxInv_len_of_seekingStart {s : State} (hinv : s.rxInv) (hst : s.st = .seekingStart) :
    Memory.len s.buf = 0 := by
  obtain ⟨-, hseek, -⟩ := hinv
  exact hseek.1 hst

theorem rxInv_len_of_haveStart {s : State} (hinv : s.rxInv) (hst : s.st = .haveStart) :
    Memory.len s.buf = 1 ∨ Memory.len s.buf = 2 := by
  obtain ⟨-, -, hhave, -⟩ := hinv
  exact hhave.1 hst

/-- In HAVE_START the byte that makes three ends the header, any other leaves the state (R93). -/
theorem rx_haveStart_transition (b : Byte) {s : State} (hst : s.st = .haveStart) :
    (rx b s).st = (if Memory.len s.buf + 1 = 3 then .bufferingPayload else .haveStart) ∧
    Memory.len (rx b s).buf = Memory.len s.buf + 1 := by
  rw [rx_haveStart b s hst, rxLenByte]
  simp only [setRx_st, setRx_buf, Memory.len_append, Config.hdrBytes, hst, and_self]

/-- Settles O23: the lines for a byte are the cases of `rx`, and the other rows write neither register nor buffer. -/
theorem transitionTableHolds : Obligations.TransitionTableHolds := by
  intro b s hinv
  refine ⟨⟨rx b s, exec_decode_unesc b s, fun hst hb => ?_, fun hst hb => ?_, fun hst hl => ?_, fun hst hl => ?_,
    fun T hst hT hl => ?_, fun T hst hT hl => ?_⟩, ⟨resetBlock s, rfl, rfl, rfl⟩, fun i hi => ?_⟩
  · rw [rx_seeking_skip b s hst hb]
    exact ⟨hst, rxInv_len_of_seekingStart hinv hst⟩
  · obtain rfl : b = Config.start := hb
    rw [rx_seeking_start s hst]
    exact ⟨rfl, rfl⟩
  · simpa [hl] using rx_haveStart_transition b hst
  · simpa [hl] using rx_haveStart_transition b hst
  · rw [rx_payByte b s hst hT hl.ne]
    exact ⟨hst, Memory.len_append s.buf b⟩
  · rw [rx_payLast b s hst hT hl]
    exact ⟨rfl, rfl⟩
  · obtain ⟨t, ht, hst, hbuf⟩ := exec_keeps_rx hi s
    exact ⟨t, ht, hst, by rw [hbuf]⟩

/-- LEN_BYTE and PAY_BYTE make the same write (R45). -/
theorem exec_appends {b : Byte} {i : Instr} (hi : i = .lenByte b ∨ i = .payByte b) (s : State) :
    ∃ t, exec i s = .next t ∧ t.buf = Memory.append s.buf b := by
  rcases hi with rfl | rfl <;> exact ⟨_, rfl, rfl⟩

/-- Settles O26: the laws of the append. -/
theorem appendStoresAtTheFillCount : Obligations.AppendStoresAtTheFillCount := by
  intro b s i hi hw
  obtain ⟨t, ht, hbuf⟩ := exec_appends hi s
  refine ⟨t, ht, ?_, ?_, fun a => ?_⟩ <;> rw [hbuf]
  · exact Memory.wf_append s.buf b hw
  · exact Memory.len_append s.buf b
  · exact Memory.read_append s.buf b hw a

/-- Settles O52: before the header is complete there are at most two bytes, then fewer than the target, which is at most
65539. -/
theorem bufferNeverOverflows : Obligations.BufferNeverOverflows := by
  intro s hinv
  have hcap : Config.bufCap = 65539 := rfl
  suffices hlen : Memory.len s.buf ≤ 65538 by omega
  cases hst : s.st with
  | seekingStart =>
    have hl := rxInv_len_of_seekingStart hinv hst
    omega
  | haveStart =>
    have hl := rxInv_len_of_haveStart hinv hst
    omega
  | bufferingPayload =>
    obtain ⟨T, -, -, hlt, hT⟩ := rxInv_target hinv hst
    omega

/-- Bytes short of the target are appended one after the other, and the target stays where it is (R98). -/
theorem rxBytes_inside_frame (u : List Byte) {s : State} {T : Nat} (hs : s.settled) (hst : s.st = .bufferingPayload)
    (hw : Memory.wf s.buf = true) (h3 : 3 ≤ Memory.len s.buf) (hT : s.target = some T)
    (hl : Memory.len s.buf + u.length < T) :
    rxBytes u s = setRx s.st (u.foldl Memory.append s.buf) s ∧ (rxBytes u s).target = some T := by
  induction u generalizing s with
  | nil => exact ⟨rfl, hT⟩
  | cons b u ih =>
    rw [List.length_cons] at hl
    have hbyte : rxByte s b = setRx s.st (Memory.append s.buf b) s := by
      rw [rxByte, rx_payByte b s hst hT (by omega), settleFrame_setRx _ _ hs.2]
    have htarget : (setRx s.st (Memory.append s.buf b) s).target = some T := by
      rw [target_append b rfl hw h3, hT]
    rw [rxBytes_cons, hbyte]
    exact ih (s := setRx s.st (Memory.append s.buf b) s) hs hst (Memory.wf_append _ b hw) (by simp; omega) htarget
      (by simp; omega)

/-- Settles O24: the unescaped bytes are appended in order. -/
theorem bytesInsideAFrameAreOnlyStored : Obligations.BytesInsideAFrameAreOnlyStored := by
  intro c u s T hinv hs hst hT hu hl
  obtain ⟨-, -, h3, -⟩ := rxInv_target hinv hst
  obtain ⟨hbytes, -⟩ := rxBytes_inside_frame u hs hst hinv.1 h3 hT hl
  refine ⟨_, exec_feed_of_not_truncated hs hu, ?_, ?_⟩ <;> rw [hbytes]
  · rfl
  · exact Memory.bytes_foldl_append s.buf u

end Sys2Proof.Machine
end

section
/-! PROOFS. Checksum Validator and Frame Dispatcher: which bytes validate, the frames of type 0x92, of unnamed types and
of zero payload length, and the codes on OUT (R74, R115, R116, R121 to R126). -/

namespace Sys2Proof.Machine

theorem byteSum_append (bs cs : List Byte) : byteSum (bs ++ cs) = byteSum bs + byteSum cs := by
  simp [byteSum]

theorem byteSum_cons (b : Byte) (bs : List Byte) : byteSum (b :: bs) = b.toNat + byteSum bs := by
  simp [byteSum]

/-- Settles O35: modulo 256 the sum of the payload leaves one value for the byte after it. -/
theorem onlyTheTransmittedChecksumValidates : Obligations.OnlyTheTransmittedChecksumValidates := by
  intro h p c hh
  have hdrop : (h ++ p ++ [c]).drop 3 = p ++ [c] := by
    rw [List.append_assoc, List.drop_left' hh]
  have hc := c.isLt
  have hnil : byteSum [] = 0 := rfl
  have hff : (0xFF : Byte).toNat = 255 := rfl
  rw [csumOk_iff, hdrop, byteSum_append, byteSum_cons, hnil, txChecksum, ← BitVec.toNat_inj, BitVec.toNat_sub,
    BitVec.toNat_ofNat, hff]
  omega

/-- Setting one byte of a list exchanges its value in the sum. -/
theorem byteSum_set {bs : List Byte} {i : Nat} {old : Byte} (new : Byte) (h : bs[i]? = some old) :
    byteSum (bs.set i new) + old.toNat = byteSum bs + new.toNat := by
  induction bs generalizing i with
  | nil => simp at h
  | cons b bs ih =>
    cases i with
    | zero =>
      obtain rfl : b = old := by simpa using h
      rw [List.set_cons_zero, byteSum_cons, byteSum_cons]
      omega
    | succ i =>
      have hset := ih (i := i) (by simpa using h)
      rw [List.set_cons_succ, byteSum_cons, byteSum_cons]
      omega

/-- Settles O36: the sum changes by the difference of two bytes, which is no multiple of 256. -/
theorem oneChangedByteIsCaught : Obligations.OneChangedByteIsCaught := by
  intro f i old new hc hi hold hne
  refine decode_frame_of_csum_bad (Bool.eq_false_iff.2 fun hc' => hne ?_)
  have hdrop : (f.drop 3)[i - 3]? = some old := by
    rw [List.getElem?_drop, Nat.add_sub_cancel' hi, hold]
  have hset := byteSum_set new hdrop
  rw [csumOk_iff] at hc hc'
  rw [List.drop_set, if_neg (by omega)] at hc'
  have h1 := old.isLt
  have h2 := new.isLt
  apply BitVec.eq_of_toNat_eq
  omega

/-- A frame of at least 22 bytes has its sample at offsets 20 and 21 (R121). -/
theorem sampleOf_of_long {f : List Byte} {hi lo : Byte} (hl : 22 ≤ f.length) (hhi : f[20]? = some hi)
    (hlo : f[21]? = some lo) : sampleOf f = some (bePair 16 hi lo) := by
  have hlong : ¬ f.length < Config.minIoSampleLen := Nat.not_lt.2 hl
  rw [sampleOf, if_neg hlong]
  simp only [memReadPair, memRead8, Config.sampleHiOff, Config.sampleLoOff, hhi, hlo, Option.bind_some, Option.map_some]

theorem sampleOf_of_short {f : List Byte} (hl : f.length < 22) : sampleOf f = none :=
  if_pos hl

theorem exec_ftZbIoSampleRx (f : List Byte) (s : State) : exec (.ftZbIoSampleRx f) s = .next (decodeIoSample f s) := rfl

/-- Settles O30: the type byte is the code of the one decoded type, and the length decides whether there is a sample. -/
theorem ioSampleIsReadAtTwentyOrMalformed : Obligations.IoSampleIsReadAtTwentyOrMalformed := by
  intro f s hc ht
  refine ⟨?_, fun hl => ?_, fun hl => ?_⟩
  · have hname : FrameType.ofByte 0x92 = some .zbIoSampleRx := FrameType.ofByte_code .zbIoSampleRx
    rw [decode_frame_of_type hc ht, hname]
    rfl
  · have hhi : f[20]? = some f[20] := List.getElem?_eq_getElem (by omega)
    have hlo : f[21]? = some f[21] := List.getElem?_eq_getElem (by omega)
    refine ⟨f[20], f[21], bePair 16 f[20] f[21], hhi, hlo, bePair_toNat _ _, ?_⟩
    rw [exec_ftZbIoSampleRx, decodeIoSample, sampleOf_of_long hl hhi hlo]
    rfl
  · rw [exec_ftZbIoSampleRx, decodeIoSample, sampleOf_of_short hl]
    rfl

/-- Settles O33: a byte that is the code of no named type names none. -/
theorem unnamedTypesPassWhole : Obligations.UnnamedTypesPassWhole := by
  intro t ht
  have hname : FrameType.ofByte t = none := by
    rw [FrameType.ofByte, List.find?_eq_none]
    intro k hk hcode
    obtain rfl : k.code = t := beq_iff_eq.1 hcode
    exact ht (List.mem_map_of_mem (f := FrameType.code) hk)
  have hpass := passesWhole_decodeType (t := t) (by rw [hname]; nofun)
  rwa [hname] at hpass

/-- The checksum byte of an empty payload is alone under the sum. -/
theorem csumOk_zero_length_iff (a b d c : Byte) : csumOk [a, b, d, c] = true ↔ c = 0xFF := by
  have hc := c.isLt
  have hsum : byteSum ([a, b, d, c].drop 3) = c.toNat := by simp [byteSum]
  rw [csumOk_iff, hsum, Nat.mod_eq_of_lt hc, ← BitVec.toNat_inj]
  rfl

/-- A CompleteFrame starts with the delimiter and is four bytes longer than its payload (R64). -/
theorem complete_length {f : List Byte} (hf : isCompleteFrame f = true) :
    f.head? = some Config.start ∧ ∃ p, framePlen f = some p ∧ f.length = p.toNat + 4 := by
  simp only [isCompleteFrame, Bool.and_eq_true, beq_iff_eq, Option.any_eq_true, memRead8] at hf
  obtain ⟨h0, p, hp, hl⟩ := hf
  exact ⟨by rw [List.head?_eq_getElem?, h0], p, hp, hl⟩

/-- Settles O37: the one byte after the header is both checksum and type byte, so it cannot be 0xFF and 0x92. -/
theorem zeroLengthPayload : Obligations.ZeroLengthPayload := by
  constructor
  · intro c s
    rw [everyFrameGivesItsOneEvent]
    by_cases hc : c = 0xFF
    · subst hc
      rfl
    · rw [frameEvent, if_neg (mt (csumOk_zero_length_iff _ _ _ c).1 hc), if_neg hc]
  · intro f hf hc ht
    obtain ⟨-, p, hp, hl⟩ := complete_length hf
    refine ⟨p, hp, Nat.pos_of_ne_zero fun h0 => ?_⟩
    rw [h0, Nat.zero_add] at hl
    obtain ⟨a, b, d, c, rfl⟩ := List.length_eq_four.1 hl
    obtain rfl : c = 0xFF := (csumOk_zero_length_iff a b d c).1 hc
    exact absurd (Option.some.inj ht) (by decide)

/-- Settles O55: the definitions of class, code and operand. -/
theorem eventsCarryTheirCodes : Obligations.EventsCarryTheirCodes :=
  ⟨fun _ => rfl, fun _ => ⟨rfl, rfl⟩, rfl, rfl, rfl⟩

end Sys2Proof.Machine
end

section
/-! PROOFS. FEED of no byte, of noise and of one CompleteFrame, and RESET (R64, R91, R98, R101, R152, R155). -/

namespace Sys2Proof.Machine

theorem exec_feed (c : List Byte) (s : State) : exec (.feed c) s = .next (feedChunk c s) := rfl

/-- Settles O40: no byte step is taken, and the flag is 0 already. -/
theorem emptyChunkDoesNothing : Obligations.EmptyChunkDoesNothing := by
  intro s he
  have hfeed : feedChunk [] s = setEsc false s := rfl
  rw [exec_feed, hfeed, setEsc_false_of_not_pending he]

/-- Settles O41: the three writes of RESET, which a second RESET makes again. -/
theorem resetDiscardsTheFrame : Obligations.ResetDiscardsTheFrame :=
  fun s => ⟨resetBlock s, rfl, rfl, rfl⟩

/-- In SEEKING_START bytes that are no delimiter change nothing (R91). -/
theorem rxBytes_noise {u : List Byte} {s : State} (hs : s.settled) (hst : s.st = .seekingStart)
    (hu : Config.start ∉ u) : rxBytes u s = s := by
  induction u with
  | nil => rfl
  | cons b u ih =>
    obtain ⟨hb, hu⟩ := not_or.1 (mt List.mem_cons.2 hu)
    rw [rxBytes_cons, rxByte, rx_seeking_skip b s hst (Ne.symm hb), settleFrame_of_none s hs.2, ih hu]

/-- Settles O48: the later stages skip the unescaped bytes, so the filter's report is all there is. -/
theorem noiseIsSkipped : Obligations.NoiseIsSkipped := by
  intro g s hs hst hg
  rw [exec_feed, feedChunk_eq_feedByFunctions g hs, feedByFunctions, rxBytes_noise hs hst hg]
  cases (unescape g).2 <;> simp [raise, emit, setEsc]

section WholeFrame

variable {s : State}

/-- A byte in HAVE_START through the later stages (R93). -/
theorem rxByte_haveStart (b : Byte) (hs : s.settled) (hst : s.st = .haveStart) :
    rxByte s b =
      setRx (if Memory.len s.buf + 1 = 3 then .bufferingPayload else .haveStart) (Memory.append s.buf b) s := by
  rw [rxByte, rx_haveStart b s hst, rxLenByte, settleFrame_setRx _ _ hs.2, Memory.len_append, hst]
  rfl

/-- Delimiter and length bytes start a frame (R92, R93). -/
theorem rxBytes_header (hi lo : Byte) (hs : s.settled) (hst : s.st = .seekingStart) :
    rxBytes [Config.start, hi, lo] s = setRx .bufferingPayload (Memory.ofBytes [Config.start, hi, lo]) s := by
  have hstart : rxByte s Config.start = setRx .haveStart (Memory.ofBytes [Config.start]) s := by
    rw [rxByte, rx_seeking_start s hst, settleFrame_setRx _ _ hs.2]
    rfl
  have hhi := rxByte_haveStart hi (s := setRx .haveStart (Memory.ofBytes [Config.start]) s) hs rfl
  have hlo := rxByte_haveStart lo (s := setRx .haveStart (Memory.ofBytes [Config.start, hi]) s) hs rfl
  rw [rxBytes_cons, hstart, rxBytes_cons, hhi, rxBytes_singleton]
  exact hlo

/-- The bytes that are left of a frame of known target: its event, and the search starts again (R95, R98). -/
theorem rxBytes_rest_of_frame (body : List Byte) (c : Byte) {T : Nat} (hs : s.settled)
    (hst : s.st = .bufferingPayload) (hw : Memory.wf s.buf = true) (h3 : 3 ≤ Memory.len s.buf)
    (hT : s.target = some T) (hl : Memory.len s.buf + body.length + 1 = T) :
    rxBytes (body ++ [c]) s = { s with
      st := .seekingStart, buf := []
      trace := s.trace ++ [frameEvent (Memory.bytes s.buf ++ (body ++ [c]))] } := by
  obtain ⟨hbody, htarget⟩ := rxBytes_inside_frame body hs hst hw h3 hT (by omega)
  rw [hbody] at htarget
  have hlen : Memory.len (body.foldl Memory.append s.buf) + 1 = T := by rw [Memory.len_foldl_append, hl]
  have hlast := rxByte_payLast c (s := setRx s.st (body.foldl Memory.append s.buf) s) hs hst htarget hlen
  rw [rxBytes_append, hbody, rxBytes_singleton, hlast, setRx_buf, Memory.bytes_foldl_append, List.append_assoc]
  rfl

/-- A CompleteFrame is its header, the bytes after it but for the last, and its last byte (R64). -/
theorem complete_eq_header_append {f : List Byte} (hf : isCompleteFrame f = true) :
    ∃ hi lo body c, f = [Config.start, hi, lo] ++ (body ++ [c]) := by
  obtain ⟨h0, p, -, hl⟩ := complete_length hf
  match f, h0, hl with
  | b :: hi :: lo :: d :: rest, h0, _ =>
    obtain rfl : b = Config.start := Option.some.inj h0
    refine ⟨hi, lo, (d :: rest).dropLast, (d :: rest).getLast (List.cons_ne_nil d rest), ?_⟩
    rw [List.dropLast_append_getLast]
    rfl

/-- A CompleteFrame through the later stages of a block that seeks: its event, and the block as before (R64, R95). -/
theorem rxBytes_complete {f : List Byte} (hf : isCompleteFrame f = true) (hs : s.settled)
    (hst : s.st = .seekingStart) (hbuf : s.buf = []) :
    rxBytes f s = { s with trace := s.trace ++ [frameEvent f] } := by
  obtain ⟨-, p, hp, hl⟩ := complete_length hf
  obtain ⟨hi, lo, body, c, rfl⟩ := complete_eq_header_append hf
  have hbytes : Memory.bytes (Memory.ofBytes [Config.start, hi, lo]) = [Config.start, hi, lo] := rfl
  have hlen : Memory.len (Memory.ofBytes [Config.start, hi, lo]) = 3 := rfl
  have hw : Memory.wf (setRx .bufferingPayload (Memory.ofBytes [Config.start, hi, lo]) s).buf = true :=
    Memory.wf_ofBytes _
  have htarget :
      (setRx .bufferingPayload (Memory.ofBytes [Config.start, hi, lo]) s).target = some (p.toNat + 4) := by
    rw [framePlen_append _ _ (by simp)] at hp
    rw [State.target, State.plen_eq_framePlen _ hw, setRx_buf, hbytes, hp]
    rfl
  have hcount : 3 + body.length + 1 = p.toNat + 4 := by
    simp only [List.length_append, List.length_cons, List.length_nil] at hl
    omega
  have hrest := rxBytes_rest_of_frame body c (setRx_settled _ _ hs) rfl hw hlen.ge htarget hcount
  rw [rxBytes_append, rxBytes_header hi lo hs hst, hrest, setRx_buf, hbytes, ← hst, ← hbuf]
  rfl

end WholeFrame

end Sys2Proof.Machine
end

section
/-! PROOFS. Host operations: whole frames in one chunk, a stream cut into chunks, and a chunk in transfers on IN (R101,
R150, R152, R154, R156). -/

namespace Sys2Proof.Machine

/-- Whole frames through the later stages of a block that seeks (R101). -/
theorem rxBytes_completes {fs : List (List Byte)} {s : State} (hfs : ∀ f ∈ fs, isCompleteFrame f = true)
    (hs : s.settled) (hst : s.st = .seekingStart) (hbuf : s.buf = []) :
    rxBytes fs.flatten s = { s with trace := s.trace ++ fs.map frameEvent } := by
  induction fs generalizing s with
  | nil => simp [rxBytes]
  | cons f fs ih =>
    obtain ⟨hf, hfs⟩ := List.forall_mem_cons.1 hfs
    have htail := ih (s := { s with trace := s.trace ++ [frameEvent f] }) hfs hs hst hbuf
    rw [List.flatten_cons, rxBytes_append, rxBytes_complete hf hs hst hbuf, htail, List.map_cons, List.append_assoc]
    rfl

/-- Settles O46: the chunk unescapes to the frames. -/
theorem framesInOneChunkGiveTheirEventsInOrder : Obligations.FramesInOneChunkGiveTheirEventsInOrder := by
  intro fs s hs hst hbuf hfs
  have hheads : ∀ f ∈ fs, f.head? ≠ some Config.esc := fun f hf => by
    rw [(complete_length (hfs f hf)).1]
    decide
  rw [exec_feed_of_not_truncated hs (unescape_wireForms hheads), rxBytes_completes hfs hs hst hbuf]
  rfl

/-- Settles O42: RESET leaves a block that seeks, whatever it held. -/
theorem resetLeavesNoResidue : Obligations.ResetLeavesNoResidue :=
  fun fs s hs hfs => ⟨resetBlock s, rfl, framesInOneChunkGiveTheirEventsInOrder fs (resetBlock s) hs rfl rfl hfs⟩

/-- Settles O47: FEED only appends, and what whole frames append is known. -/
theorem feedReturnsTheOutcomes : Obligations.FeedReturnsTheOutcomes := by
  constructor
  · intro c s
    obtain ⟨es, hes⟩ := feedBytes_trace_grows (setEsc false s) c
    exact ⟨feedChunk c s, es, rfl, hes, outcomesSince_of_grown (feedChunk c s) hes⟩
  · intro fs s hs hst hbuf hfs
    exact ⟨_, framesInOneChunkGiveTheirEventsInOrder fs s hs hst hbuf hfs, outcomesSince_of_grown _ rfl⟩

/-! No stage looks at the position on IN or at what the host has presented (R150). -/

/-- The state with another position on IN and other input. -/
def onIn (midChunk : Bool) (input : List Input) (s : State) : State :=
  { s with midChunk := midChunk, input := input }

section OnIn

variable (b : Byte) (last m : Bool) (x : List Input) (s : State)

theorem filterStep_onIn : filterStep b last (onIn m x s) = onIn m x (filterStep b last s) := by
  have hesc : (onIn m x s).esc = s.esc := rfl
  rw [filterStep, hesc, filterStep]
  cases rawRow s.esc last b <;> rfl

theorem rx_onIn : rx b (onIn m x s) = onIn m x (rx b s) := by
  rw [rx_congr b (s := onIn m x s) (r := s) rfl rfl rfl, rx_congr b (s := s) (r := s) rfl rfl rfl]
  rfl

theorem settleFrame_onIn : settleFrame (onIn m x s) = onIn m x (settleFrame s) := by
  cases hr : s.ready with
  | none => rw [settleFrame_of_none s hr, settleFrame_of_none (onIn m x s) hr]
  | some f =>
    rw [settleFrame_of_some f s hr, settleFrame_of_some f (onIn m x s) hr]
    rfl

theorem settle_onIn : settle (onIn m x s) = onIn m x (settle s) := by
  cases hb : s.unesc with
  | none =>
    have hsettle (t : State) (ht : t.unesc = none) : settle t = settleFrame t := by rw [settle, ht]
    rw [hsettle s hb, hsettle (onIn m x s) hb, settleFrame_onIn]
  | some b =>
    have htake : takeByte (onIn m x s) = onIn m x (takeByte s) := rfl
    rw [settle_of_unesc b s hb, settle_of_unesc b (onIn m x s) hb, htake, rx_onIn, settleFrame_onIn]

theorem byteStep_onIn : byteStep b last (onIn m x s) = onIn m x (byteStep b last s) := by
  rw [byteStep, filterStep_onIn, settle_onIn, byteStep]

theorem feedBytes_onIn (c : List Byte) : feedBytes c (onIn m x s) = onIn m x (feedBytes c s) := by
  induction c generalizing s with
  | nil => rfl
  | cons b c ih => rw [feedBytes, byteStep_onIn, ih, feedBytes]

theorem feedChunk_onIn (c : List Byte) : feedChunk c (onIn m x s) = onIn m x (feedChunk c s) :=
  congrArg (setEsc false) (feedBytes_onIn m x (setEsc false s) c)

end OnIn

/-- FEED of two chunks, the first not truncated, is FEED of both at once (R156). -/
theorem feedChunk_append {c₁ : List Byte} (c₂ : List Byte) {s : State} (hs : s.settled)
    (hc : (unescape c₁).2 = false) : feedChunk (c₁ ++ c₂) s = feedChunk c₂ (feedChunk c₁ s) := by
  have hfirst : feedChunk c₁ s = setEsc false (rxBytes (unescape c₁).1 s) := by
    rw [feedChunk_eq_feedByFunctions c₁ hs, feedByFunctions, hc]
    rfl
  have hs' := feedChunk_settled s c₁ hs
  rw [feedChunk_eq_feedByFunctions _ hs, feedChunk_eq_feedByFunctions _ hs', hfirst, feedByFunctions, feedByFunctions,
    unescapeJoinsWhereNotTruncated c₁ c₂ hc, rxBytes_append, rxBytes_setEsc]
  rfl

/-! Sequences of steps. -/

theorem steps_succ {s t : State} (n : Nat) (hstep : step s = .next t) : steps (n + 1) s = steps n t := by
  rw [steps, hstep]

/-- Chunks none of which is truncated, presented one after the other, take one step each, and end where FEED of their
concatenation does but for the input. -/
theorem steps_feeds {cs : List (List Byte)} {s : State} (hrest : s.resting) (hcs : ∀ c ∈ cs, (unescape c).2 = false)
    (hi : s.input = cs.map fun c => Input.op (.feed c)) :
    steps cs.length s = .next (onIn s.midChunk [] (feedChunk cs.flatten s)) := by
  obtain ⟨hs, he, hm⟩ := hrest
  induction cs generalizing s with
  | nil =>
    have hfeed : feedChunk [] s = s := Host.Outcome.next.inj (emptyChunkDoesNothing s he)
    have hnil : s.input = [] := hi
    rw [List.flatten_nil, hfeed, ← hnil]
    rfl
  | cons c cs ih =>
    obtain ⟨hc, hcs⟩ := List.forall_mem_cons.1 hcs
    have hstep : step s = .next (onIn s.midChunk (cs.map fun c => .op (.feed c)) (feedChunk c s)) :=
      (step_feeds hs hm hi).trans (congrArg Host.Outcome.next (feedChunk_onIn s.midChunk _ s c))
    have htail := ih (s := onIn s.midChunk (cs.map fun c => .op (.feed c)) (feedChunk c s)) hcs rfl
      (feedChunk_settled s c hs) rfl hm
    rw [List.length_cons, steps_succ _ hstep, htail, feedChunk_onIn, ← feedChunk_append cs.flatten hs hc]
    rfl

/-- Settles O45: one step per chunk. -/
theorem splitDeliveryIsOneFeed : Obligations.SplitDeliveryIsOneFeed := by
  intro cs s hrest hcs hi
  refine ⟨feedChunk cs.flatten s, rfl, ?_⟩
  rw [steps_feeds hrest hcs hi, ← feedChunk_midChunk s cs.flatten]
  rfl

/-- Some number of steps leads from `s` to `t`. -/
def reaches (s t : State) : Prop :=
  ∃ n, steps n s = .next t

theorem reaches_refl (s : State) : reaches s s := ⟨0, rfl⟩

theorem reaches_of_step {s t u : State} (hstep : step s = .next t) (h : reaches t u) : reaches s u := by
  obtain ⟨n, hn⟩ := h
  exact ⟨n + 1, (steps_succ n hstep).trans hn⟩

theorem reaches_trans {s t u : State} (hst : reaches s t) (htu : reaches t u) : reaches s u := by
  obtain ⟨n, hn⟩ := hst
  induction n generalizing s with
  | zero =>
    obtain rfl : s = t := Host.Outcome.next.inj hn
    exact htu
  | succ n ih =>
    rw [steps] at hn
    cases hstep : step s with
    | next s' =>
      rw [hstep] at hn
      exact reaches_of_step hstep (ih hn)
    | fault r => simp [hstep] at hn
    | refused r => simp [hstep] at hn

/-- The step after a frame is complete handles it, if there is one. -/
theorem reaches_settleFrame (s : State) : reaches s (settleFrame s) := by
  cases hf : s.ready with
  | none =>
    rw [settleFrame_of_none s hf]
    exact reaches_refl s
  | some f =>
    rw [settleFrame_of_some f s hf]
    exact reaches_of_step (step_handles hf) (reaches_refl _)

/-- What waits between the stages is taken in at most two steps (R48). -/
theorem reaches_settle {s : State} (hr : s.ready = none) : reaches s (settle s) := by
  cases hb : s.unesc with
  | none =>
    rw [settle_of_settled s ⟨hb, hr⟩]
    exact reaches_refl s
  | some b =>
    rw [settle_of_unesc b s hb]
    exact reaches_of_step (step_reassembles hr hb) (reaches_settleFrame _)

/-- A transfer is taken with the whole of its byte step (R150). -/
theorem reaches_byteStep {b : Byte} {last : Bool} {rest : List Input} {s : State} (hs : s.settled)
    (hi : s.input = .transfer b last :: rest) : reaches s (byteStep b last (takeTransfer last rest s)) := by
  refine reaches_of_step (step_filters hs hi) (reaches_settle ?_)
  rw [filterStep_ready]
  exact hs.2

/-- The transfers of a chunk, or of what is left of one, are taken with the byte steps of its bytes. -/
theorem reaches_feedBytes {c : List Byte} {rest : List Input} {s : State} (hc : c ≠ []) (hs : s.settled)
    (hi : s.input = transfers c ++ rest) :
    reaches s (feedBytes c (onIn false rest (setEsc (s.midChunk && s.esc) s))) := by
  induction c generalizing s with
  | nil => contradiction
  | cons b c ih =>
    have hfirst := reaches_byteStep hs hi
    cases c with
    | nil => exact hfirst
    | cons b' c =>
      set t := byteStep b false (takeTransfer false (transfers (b' :: c) ++ rest) s) with ht
      have hmid : t.midChunk = true := byteStep_midChunk b _ false
      have htail := ih (s := t) nofun (byteStep_settled b _ false) (byteStep_input b _ false)
      have hesc : setEsc (true && t.esc) t = t := rfl
      rw [hmid, hesc, ht, ← byteStep_onIn] at htail
      exact reaches_trans hfirst htail

/-- A chunk of at least one byte leaves no escape pending (R24). -/
theorem feedBytes_esc {c : List Byte} (hc : c ≠ []) (s : State) : (feedBytes c s).esc = false := by
  induction c generalizing s with
  | nil => contradiction
  | cons b c ih =>
    cases c with
    | nil => exact byteStep_last_esc b s
    | cons b' c => exact ih nofun _

/-- Settles O39: the byte steps of FEED, with the transfers taken, and no escape left to clear. -/
theorem transfersOnInAreFeed : Obligations.TransfersOnInAreFeed := by
  intro c rest s hc hs hm hi
  obtain ⟨n, hn⟩ := reaches_feedBytes hc hs hi
  have hfeed : feedChunk c s = feedBytes c (setEsc false s) :=
    setEsc_false_of_not_pending (feedBytes_esc hc (setEsc false s))
  refine ⟨n, feedChunk c s, rfl, ?_⟩
  rw [hn, hm, Bool.false_and, feedBytes_onIn, ← hfeed, ← hm, ← feedChunk_midChunk s c]
  rfl

end Sys2Proof.Machine
end
